-- ==== Sys2Proof/Word.lean ====
section
/-! DEFINITION. The words of the block and the plain arithmetic of the spec's notation (R6, R7, R8). -/

namespace Sys2Proof

/-- A POP_ROM entry, a draw bound or a draw answer: 8 bits (R5, R20, R41). -/
abbrev Byte := BitVec 8

/-- A command word, CMD: 32 bits (R34). -/
abbrev Word := BitVec 32

/-- How many of the lowest `n` bits of `v` are 1: the primitive popcount of R8, on an `n`-bit value. -/
def popcount : Nat → Nat → Nat
  | 0, _ => 0
  | n + 1, v => v % 2 + popcount n (v / 2)

end Sys2Proof
end

