-- ==== Sys2Proof/Config.lean ====
section
/-! DEFINITION. What the build of the block fixes (R2, R4), and the one value that the spec leaves open. -/

namespace Sys2Proof

/-- The build parameter MAX_WIDTH, 64 or 128 (R2). -/
inductive MaxWidth where
  | w64
  | w128
deriving DecidableEq, Repr

/-- The build parameters of R2 and R4. No command reads or writes them (R16). -/
structure Params where
  /-- MAX_WIDTH: whether the width 128 is supported (R2). -/
  maxWidth : MaxWidth
  /-- SKIP_SINGLETON_BYTE_DRAW: whether a one-entry bucket is sampled without a draw (R4). -/
  skipSingletonByteDraw : Bool
deriving DecidableEq, Repr

/-- This hardware: MAX_WIDTH = 128 and SKIP_SINGLETON_BYTE_DRAW = false (R2, R4; log 9). -/
def hardware : Params where
  maxWidth := .w128
  skipSingletonByteDraw := false

/-- A FREE VALUE: what CUR holds after a reset, by how many resets the run saw before it. R19 calls it unspecified and
93_implementation_defined.md U13 'any value', so it has no body and nothing can be proved of it (log 2). -/
opaque Config.curAfterReset : Nat → Word

end Sys2Proof
end

