-- ==== Sys2Proof/Syntax.lean ====
section
/-! DEFINITION. The seven command forms of R42, one constructor for each row of the opcode table, the reason
codes of R70, and the statements of the assembler (R45). -/

namespace Sys2Proof

/-- A command. `k` is the field K and `i` the field IDX, both read as unsigned integers (R37, R38). Which values fit
their fields is said in WellFormed. -/
inductive Instr where
  /-- GEN.W8 k (R63) -/
  | genW8 (k : Nat)
  /-- GEN.W16 k (R64) -/
  | genW16 (k : Nat)
  /-- GEN.W32 k (R65) -/
  | genW32 (k : Nat)
  /-- GEN.W64 k (R66) -/
  | genW64 (k : Nat)
  /-- GEN.W128 k (R67) -/
  | genW128 (k : Nat)
  /-- ROMRD k, i (R47) -/
  | romrd (k i : Nat)
  /-- ROMSZ k (R48) -/
  | romsz (k : Nat)
deriving DecidableEq, Repr

/-- The reason codes of InvalidRequest (R70). STATUS 0 (OK) is no reason, and 0x7 to 0xF are never produced. -/
inductive Reason where
  /-- 0x1: OP = 11 -/
  | invalidOp
  /-- 0x2: a reserved or unused field is not zero -/
  | reservedNonzero
  /-- 0x3: GEN with a WSEL that selects no supported width -/
  | unsupportedWidth
  /-- 0x4: k above the operation's limit -/
  | popcountRange
  /-- 0x5: ROMRD with IDX ≥ C(8,k) -/
  | indexRange
  /-- 0x6: a draw answer outside [LO, HI] -/
  | drawRange
deriving DecidableEq, Repr

/-- A statement of the assembler: the three command syntaxes and the three pseudo-instructions of R45. `w` is the
width as it is written. -/
inductive AsmStmt where
  /-- GEN.W<w> k -/
  | gen (w k : Nat)
  /-- ROMRD k, i -/
  | romrd (k i : Nat)
  /-- ROMSZ k -/
  | romsz (k : Nat)
  /-- SAMPLEBYTE k -/
  | sampleByte (k : Nat)
  /-- ZEROS.W<w> -/
  | zeros (w : Nat)
  /-- ONES.W<w> -/
  | ones (w : Nat)
deriving DecidableEq, Repr

end Sys2Proof
end

