-- ==== Sys2Proof/Decode.lean ====
section
/-! DEFINITION. The decoder of command words and the encoder (R34 to R39, R42 to R44, R72). -/

namespace Sys2Proof

/-- OP, bits 31:30 (R34). -/
def fieldOp (w : Word) : BitVec 2 := w.extractLsb' 30 2
/-- RSV_A, bits 29:23 (R34). -/
def fieldRsvA (w : Word) : BitVec 7 := w.extractLsb' 23 7
/-- IDX, bits 22:16 (R34). -/
def fieldIdx (w : Word) : BitVec 7 := w.extractLsb' 16 7
/-- RSV_B, bits 15:11 (R34). -/
def fieldRsvB (w : Word) : BitVec 5 := w.extractLsb' 11 5
/-- WSEL, bits 10:8 (R34). -/
def fieldWsel (w : Word) : BitVec 3 := w.extractLsb' 8 3
/-- K, bits 7:0 (R34). -/
def fieldK (w : Word) : BitVec 8 := w.extractLsb' 0 8

/-- What the decoder reads from a word: a command, or the reason for which the word is none. -/
inductive Decoded where
  | instr (i : Instr)
  | invalid (r : Reason)
deriving DecidableEq, Repr

/-- The GEN form that WSEL selects, with WSEL = 100 only when MAX_WIDTH = 128 (R36). -/
def decodeGen (p : Params) (wsel : BitVec 3) (k : Nat) : Decoded :=
  if wsel = 0b000#3 then .instr (.genW8 k)
  else if wsel = 0b001#3 then .instr (.genW16 k)
  else if wsel = 0b010#3 then .instr (.genW32 k)
  else if wsel = 0b011#3 then .instr (.genW64 k)
  else if wsel = 0b100#3 then
    match p.maxWidth with
    | .w128 => .instr (.genW128 k)
    | .w64 => .invalid .unsupportedWidth
  else .invalid .unsupportedWidth

/-- The decoder: the checks of R72 that look at the encoding, in its order. The operand checks, POPCOUNT_RANGE and
INDEX_RANGE, come after all of them and belong to the meanings. -/
def decode (p : Params) (w : Word) : Decoded :=
  if fieldOp w = 0b11#2 then .invalid .invalidOp
  else if fieldRsvA w ≠ 0 ∨ fieldRsvB w ≠ 0 then .invalid .reservedNonzero
  else if fieldOp w = 0b00#2 ∧ fieldIdx w ≠ 0 then .invalid .reservedNonzero
  else if fieldOp w ≠ 0b00#2 ∧ fieldWsel w ≠ 0 then .invalid .reservedNonzero
  else if fieldOp w = 0b10#2 ∧ fieldIdx w ≠ 0 then .invalid .reservedNonzero
  else if fieldOp w = 0b00#2 then decodeGen p (fieldWsel w) (fieldK w).toNat
  else if fieldOp w = 0b01#2 then .instr (.romrd (fieldK w).toNat (fieldIdx w).toNat)
  else .instr (.romsz (fieldK w).toNat)

/-- A word from its fields, the reserved fields zero, in the order of R34: OP, RSV_A, IDX, RSV_B, WSEL, K. -/
def assembleFields (op : BitVec 2) (idx : BitVec 7) (wsel : BitVec 3) (k : BitVec 8) : Word :=
  op ++ 0#7 ++ idx ++ 0#5 ++ wsel ++ k

/-- The encoder (R42, R45): the word of a command. An operand that does not fit its field loses its upper bits; a
well-formed command has none. -/
def encode : Instr → Word
  | .genW8 k => assembleFields 0b00 0 0b000 (BitVec.ofNat 8 k)
  | .genW16 k => assembleFields 0b00 0 0b001 (BitVec.ofNat 8 k)
  | .genW32 k => assembleFields 0b00 0 0b010 (BitVec.ofNat 8 k)
  | .genW64 k => assembleFields 0b00 0 0b011 (BitVec.ofNat 8 k)
  | .genW128 k => assembleFields 0b00 0 0b100 (BitVec.ofNat 8 k)
  | .romrd k i => assembleFields 0b01 (BitVec.ofNat 7 i) 0 (BitVec.ofNat 8 k)
  | .romsz k => assembleFields 0b10 0 0 (BitVec.ofNat 8 k)

/-- A row of the opcode map (R42): a word `w` matches when `w &&& mask = pattern`. -/
structure OpcodeRow where
  mnemonic : String
  pattern : Word
  mask : Word
deriving DecidableEq, Repr

/-- `w` matches the row (R42). -/
def OpcodeRow.accepts (r : OpcodeRow) (w : Word) : Bool := decide (w &&& r.mask = r.pattern)

/-- The opcode map of R42, for MAX_WIDTH = 128. -/
def opcodeMap : List OpcodeRow :=
  [ ⟨"GEN.W8", 0x00000000#32, 0xFFFFFF00#32⟩,
    ⟨"GEN.W16", 0x00000100#32, 0xFFFFFF00#32⟩,
    ⟨"GEN.W32", 0x00000200#32, 0xFFFFFF00#32⟩,
    ⟨"GEN.W64", 0x00000300#32, 0xFFFFFF00#32⟩,
    ⟨"GEN.W128", 0x00000400#32, 0xFFFFFF00#32⟩,
    ⟨"ROMRD", 0x40000000#32, 0xFF80FF00#32⟩,
    ⟨"ROMSZ", 0x80000000#32, 0xFFFFFF00#32⟩ ]

/-- The row of the opcode map that a command belongs to (R42). -/
def rowOf : Instr → OpcodeRow
  | .genW8 _ => ⟨"GEN.W8", 0x00000000#32, 0xFFFFFF00#32⟩
  | .genW16 _ => ⟨"GEN.W16", 0x00000100#32, 0xFFFFFF00#32⟩
  | .genW32 _ => ⟨"GEN.W32", 0x00000200#32, 0xFFFFFF00#32⟩
  | .genW64 _ => ⟨"GEN.W64", 0x00000300#32, 0xFFFFFF00#32⟩
  | .genW128 _ => ⟨"GEN.W128", 0x00000400#32, 0xFFFFFF00#32⟩
  | .romrd _ _ => ⟨"ROMRD", 0x40000000#32, 0xFF80FF00#32⟩
  | .romsz _ => ⟨"ROMSZ", 0x80000000#32, 0xFFFFFF00#32⟩

/-- The command that this hardware's decoder reads from an instruction of `nbits` bits whose value is `w`. Every command is
exactly one 32-bit word (R44): an instruction of any other length is none. It comes on a parallel channel, so there is no
byte order to lay it out in (R26; log 13). -/
def decodeTableWord (nbits w : Nat) : Option Instr :=
  if nbits = 32 ∧ w < 2 ^ 32 then
    match decode hardware (BitVec.ofNat 32 w) with
    | .instr i => some i
    | .invalid _ => none
  else none

end Sys2Proof
end

