-- ==== Sys2Proof/Machine/State.lean ====
section
/-! DEFINITION. The state of the block (R11, R12, R17, R40, R41), the outside world as data, and the state after reset
(R19). The ROMs are constants of Machine/Rom.lean (R11, R25; log 3). -/

namespace Sys2Proof.Machine

/-- The widths the composer works at (R53). -/
inductive ComposerWidth where
  | w16
  | w32
  | w64
  | w128
deriving DecidableEq, Repr

/-- A supported width (R2): 8, where the byte sampler answers, or a width of the composer (R56). -/
inductive Width where
  | w8
  | composed (c : ComposerWidth)
deriving DecidableEq, Repr

/-- PHASE (R12). -/
inductive Phase where
  | idle
  | busy
  | respond
deriving DecidableEq, Repr

/-- KIND of a draw request: 0 is INDEX and 1 is SPLIT (R41). -/
inductive DrawKind where
  | index
  | split
deriving DecidableEq, Repr

/-- A draw request (KIND, LO, HI) (R41). -/
structure DrawReq where
  kind : DrawKind
  lo : Byte
  hi : Byte
deriving DecidableEq, Repr

/-- A response (R40). An error response carries no result value: what its RESULT lines drive is
`Response.result` (log 10). -/
inductive Response where
  /-- STATUS 0 with its RESULT -/
  | ok (result : BitVec 128)
  /-- STATUS ≠ 0, no value -/
  | error (reason : Reason)
deriving DecidableEq, Repr

/-- A pending composer frame (R17): the width W′, the popcount k′, the split h′ once drawn, and the high half's result
once known. -/
structure Frame where
  width : ComposerWidth
  k : Nat
  split : Option Nat
  high : Option Nat
deriving DecidableEq, Repr

/-- WORK (R17): the pending composer frames, the innermost first, and at most one byte-sampler frame, which holds the
popcount it samples (log 18). -/
structure Work where
  frames : List Frame
  sampler : Option Nat
deriving DecidableEq, Repr

/-- WORK when it is empty (R12, R19). -/
def Work.empty : Work where
  frames := []
  sampler := none

/-- What the outside world does (log 4). Each step takes at most what R33, R82 and R83 let the block take. -/
inductive Input where
  /-- the requester offers a command word (R82) -/
  | command (w : Word)
  /-- the random source sends an answer (R83) -/
  | answer (v : Byte)
  /-- the requester takes the response (R12) -/
  | take
  /-- reset (R80) -/
  | reset
  /-- the outside does nothing while the block makes one move of its own (log 21) -/
  | tick
deriving DecidableEq, Repr

/-- What has happened on the channels (92_eei_decisions.md D19; log 7). -/
inductive Event where
  /-- a command was accepted and latched into CUR -/
  | accepted (w : Word)
  /-- a draw request was issued -/
  | drawRequested (d : DrawReq)
  /-- the outstanding draw request was answered -/
  | drawAnswered (v : Byte)
  /-- a response was put on the response channel -/
  | responded (r : Response)
  /-- the requester took the response -/
  | taken (r : Response)
  /-- the block was reset -/
  | wasReset
deriving DecidableEq, Repr

/-- The state: R11's table (less the constant ROMs), and then the model's own fields. -/
structure State where
  /-- PHASE (R12) -/
  phase : Phase
  /-- CUR, the command accepted (R11, R12) -/
  cur : Word
  /-- WORK, the position in the composition and the partial result (R17) -/
  work : Work
  /-- DRAW_OUT, the one outstanding draw request (R11, R33) -/
  drawOut : Option DrawReq
  /-- RSP_BUF, the response waiting to be taken (R11, R12) -/
  rspBuf : Option Response
  /-- the model's: what the outside world does from here on, the oldest first (log 4) -/
  inputs : List Input
  /-- the model's: the commands the requester offers and holds, the oldest first (R82; log 5) -/
  cmdIn : List Word
  /-- the model's: what has happened on the channels, the oldest first (log 7) -/
  history : List Event
  /-- the model's: how many resets the run has seen (log 2) -/
  resets : Nat
deriving DecidableEq, Repr

/-- Why the machine stops. No run from reset meets one of these (log 11). -/
inductive Fault where
  /-- Raised by a ROM access for a popcount outside 0..8: 93_implementation_defined.md U1 and U2 ask for a fault.
  Safe: no command reaches it (R46, R59). -/
  | lookupOutOfRange
  /-- Raised by a POP_ROM read outside addresses 0..255, which do not exist (R20). Safe: no command reaches it. -/
  | romAddress
  /-- Raised when a result or an answer comes and WORK holds nothing that waits for it, a state no run reaches: the spec
  gives it no effect. Safe. -/
  | workCorrupt
deriving DecidableEq, Repr

/-- Why the model gives a command no meaning. -/
inductive Refusal where
  /-- Raised by an arm of `exec` whose command has no meaning yet. Safe. No arm raises it. -/
  | notModelled (mnemonic : String)
deriving DecidableEq, Repr

/-- The block right after reset (R19, R80), with nothing done by the outside world yet. R19 leaves CUR unspecified: the
model takes 0 (DESIGN CHOICE, log 1). -/
def State.reset : State where
  phase := .idle
  cur := 0#32
  work := Work.empty
  drawOut := none
  rspBuf := none
  inputs := []
  cmdIn := []
  history := []
  resets := 0

end Sys2Proof.Machine
end

