-- ==== Sys2Proof/Machine/Flags.lean ====
section
/-! DEFINITION. The block has no flags, condition codes or predicates (R15). What it reports is STATUS, a field of each
response: the codes (R70) and the two fields of a response as the channel carries them (R40). -/

namespace Sys2Proof.Machine

/-- The STATUS code of a reason (R70). -/
def statusCode : Reason → BitVec 4
  | .invalidOp => 0x1
  | .reservedNonzero => 0x2
  | .unsupportedWidth => 0x3
  | .popcountRange => 0x4
  | .indexRange => 0x5
  | .drawRange => 0x6

/-- STATUS: 0 for success or a reason code (R40). -/
def Response.status : Response → BitVec 4
  | .ok _ => 0x0
  | .error r => statusCode r

/-- What the RESULT lines drive: the value when STATUS = 0, and 0 when STATUS ≠ 0 (R40). -/
def Response.result : Response → BitVec 128
  | .ok v => v
  | .error _ => 0

/-- The value a consumer may use: none with STATUS ≠ 0 (R40, R84 c; log 10). -/
def Response.value? : Response → Option (BitVec 128)
  | .ok v => some v
  | .error _ => none

/-- KIND as the draw channel carries it: 0 is INDEX and 1 is SPLIT (R41). -/
def DrawKind.code : DrawKind → BitVec 1
  | .index => 0
  | .split => 1

end Sys2Proof.Machine
end

