-- ==== Sys2Proof/Machine/Operands.lean ====
section
/-! DEFINITION. The operand forms: widths and halves (R36, R53, R54), draw requests and their ranges (R41, R49, R54),
and the operand checks of R72. -/

namespace Sys2Proof.Machine

/-- The width in bits of a composer width (R53). -/
def ComposerWidth.bits : ComposerWidth → Nat
  | .w16 => 16
  | .w32 => 32
  | .w64 => 64
  | .w128 => 128

/-- The width of each half: widths go 128 → 64 → 32 → 16 → 8 (R56). -/
def ComposerWidth.half : ComposerWidth → Width
  | .w16 => .w8
  | .w32 => .composed .w16
  | .w64 => .composed .w32
  | .w128 => .composed .w64

/-- The width in bits (R2, R36). -/
def Width.bits : Width → Nat
  | .w8 => 8
  | .composed c => c.bits

/-- lo = max(0, k − half) (R54). The subtraction of natural numbers is 0 where k < half. -/
def splitLo (c : ComposerWidth) (k : Nat) : Nat := k - c.half.bits

/-- hi = min(k, half) (R54). -/
def splitHi (c : ComposerWidth) (k : Nat) : Nat := min k c.half.bits

/-- The SPLIT draw request of compose(W, k) (R41, R55). -/
def splitRequest (c : ComposerWidth) (k : Nat) : DrawReq where
  kind := .split
  lo := BitVec.ofNat 8 (splitLo c k)
  hi := BitVec.ofNat 8 (splitHi c k)

/-- The INDEX draw request over [0, SIZE_ROM[k] − 1] (R41, R49). -/
def indexRequest (size : Nat) : DrawReq where
  kind := .index
  lo := 0#8
  hi := BitVec.ofNat 8 (size - 1)

/-- The answer `v` is in the request's range: LO ≤ VALUE ≤ HI (R41). -/
def DrawReq.inRange (d : DrawReq) (v : Byte) : Bool :=
  decide (d.lo.toNat ≤ v.toNat) && decide (v.toNat ≤ d.hi.toNat)

/-- The concatenation of two halves, (hv << half) | lv (R57). -/
def concatHalves (c : ComposerWidth) (hv lv : Nat) : Nat := (hv <<< c.half.bits) ||| lv

/-- The 2^W − 1 of the all-ones shortcut (R53). -/
def allOnes (c : ComposerWidth) : Nat := 2 ^ c.bits - 1

/-- GEN's operand check: k > W is POPCOUNT_RANGE (R72). -/
def popcountAbove (limit k : Nat) : Bool := decide (limit < k)

/-- The largest popcount of ROMRD and ROMSZ (R37, R72). -/
def romPopcountLimit : Nat := 8

end Sys2Proof.Machine
end

