-- ==== Sys2Proof/Machine/Ops.lean ====
section
/-! DEFINITION. The operations on the block's state that the commands share: responding, InvalidRequest (the block's one
exception, R73) and the return to IDLE (R74), and the two sides of the draw channel (R33, R41). -/

namespace Sys2Proof.Machine

/-- respond(status, result): puts one response on the response channel and ends the request (R8, R12, R40). -/
def respond (r : Response) (s : State) : State :=
  { s with
    phase := .respond
    work := Work.empty
    drawOut := none
    rspBuf := some r
    history := s.history ++ [.responded r] }

/-- respond(0, zext_128(v)) (R40). -/
def respondValue (v : Nat) (s : State) : State := respond (.ok (BitVec.ofNat 128 v)) s

/-- raise InvalidRequest(reason) (R73): WORK is emptied, DRAW_OUT withdrawn, RSP_BUF holds the reason and no value, and
PHASE is RESPOND. Nothing is saved. This is the block's taking of an exception. -/
def raiseInvalidRequest (r : Reason) (s : State) : State := respond (.error r) s

/-- The requester takes the response: RSP_BUF becomes none and PHASE becomes IDLE (R12). After an error this is all there
is of a return (R74). Where no response is offered there is nothing to take (log 14). -/
def takeResponse (s : State) : State :=
  match s.phase, s.rspBuf with
  | .respond, some r => { s with phase := .idle, rspBuf := none, history := s.history ++ [.taken r] }
  | _, _ => s

/-- Issues a draw request and waits for its answer in BUSY, with `w` as the position (R12, R17, R41). -/
def issueDraw (w : Work) (d : DrawReq) (s : State) : State :=
  { s with
    phase := .busy
    work := w
    drawOut := some d
    history := s.history ++ [.drawRequested d] }

/-- The answer `v` is accepted and the request is no longer outstanding (R33 b, R83). `rest` is what the outside world does
after it. -/
def acceptAnswer (v : Byte) (rest : List Input) (s : State) : State :=
  { s with
    drawOut := none
    inputs := rest
    history := s.history ++ [.drawAnswered v] }

end Sys2Proof.Machine
end

