-- ==== Sys2Proof/Machine/Sampler.lean ====
section
/-! DEFINITION. uniform_byte_sampler (R49 to R51), as the two halves that stand before and after its draw. -/

namespace Sys2Proof.Machine

/-- How far a piece of work comes without a further answer. -/
inductive Progress where
  /-- it is done and its result is `v` -/
  | value (v : Nat)
  /-- it needs the answer to the request `d`, and `w` is the position where it waits (R17) -/
  | draw (w : Work) (d : DrawReq)
  /-- it broke a contract of 93_implementation_defined.md §1 (log 11) -/
  | stop (f : Fault)
deriving DecidableEq, Repr

/-- sampleByte(k) up to its draw (R49), with `fs` the frames that wait for its byte. -/
def enterByte (p : Params) (k : Nat) (fs : List Frame) : Progress :=
  match sizeRom k with
  | none => .stop .lookupOutOfRange
  | some size =>
    if p.skipSingletonByteDraw && decide (size = 1#7) then
      match romEntry k 0 with
      | .ok b => .value b.toNat
      | .error f => .stop f
    else .draw { frames := fs, sampler := some k } (indexRequest size.toNat)

/-- sampleByte(k) after the answer `i`, used unchanged as the index (R49, R50). -/
def finishByte (k i : Nat) : Except Fault Nat :=
  match romEntry k i with
  | .ok b => .ok b.toNat
  | .error f => .error f

end Sys2Proof.Machine
end

