-- ==== Sys2Proof/Machine/Composer.lean ====
section
/-! DEFINITION. recursive_width_composer (R53 to R58), run on the stack that WORK holds (R17). The recursive definition the
spec gives stands in Machine/Recursion.lean, and R17 asks that the two issue the same draws and give the same result. -/

namespace Sys2Proof.Machine

/-- sample(W, k) up to its first draw (R53, R55, R56), with `fs` the frames that wait for its value. -/
def enter (p : Params) (w : Width) (k : Nat) (fs : List Frame) : Progress :=
  match w with
  | .w8 => enterByte p k fs
  | .composed c =>
    if k = 0 then .value 0
    else if k = c.bits then .value (allOnes c)
    else .draw { frames := { width := c, k := k, split := none, high := none } :: fs, sampler := none } (splitRequest c k)

/-- Gives the value `v` to the frames that wait for it, the innermost first, and goes on to the next draw or to the end: a
high half is kept and its low half entered, a low half completes its frame (R56, R57). -/
def feed (p : Params) (v : Nat) : List Frame → Progress
  | [] => .value v
  | f :: fs =>
    match f.split, f.high with
    | none, _ => .stop .workCorrupt
    | some _, some hv => feed p (concatHalves f.width hv v) fs
    | some h, none =>
      match enter p f.width.half (f.k - h) ({ f with high := some v } :: fs) with
      | .value lv => feed p (concatHalves f.width v lv) fs
      | .draw w d => .draw w d
      | .stop e => .stop e

/-- Goes on from the position `w` with the answer `a` to the outstanding request (R17, R49, R55): the byte sampler reads its
entry, a composer frame takes its split and samples its high half (R56). -/
def continueWith (p : Params) (w : Work) (a : Nat) : Progress :=
  match w.sampler, w.frames with
  | some k, fs =>
    match finishByte k a with
    | .ok v => feed p v fs
    | .error e => .stop e
  | none, [] => .stop .workCorrupt
  | none, f :: fs =>
    match f.split with
    | some _ => .stop .workCorrupt
    | none =>
      match enter p f.width.half a ({ f with split := some a } :: fs) with
      | .value hv => feed p hv ({ f with split := some a } :: fs)
      | .draw w' d => .draw w' d
      | .stop e => .stop e

/-- The random source answers the outstanding request as long as the outside world's next input is an answer, and the block
works on; then it waits in BUSY (R12, R33 b, R79; log 6, log 8). An answer outside the range aborts the request (R73). The
list is `s.inputs`. -/
def pump (p : Params) : List Input → State → Host.Outcome State Fault Refusal
  | .answer v :: rest, s =>
    match s.drawOut with
    | none => .next s
    | some d =>
      if d.inRange v then
        match continueWith p s.work v.toNat with
        | .value x => .next (respondValue x (acceptAnswer v rest s))
        | .draw w d' => pump p rest (issueDraw w d' (acceptAnswer v rest s))
        | .stop f => .fault f
      else .next (raiseInvalidRequest .drawRange (acceptAnswer v rest s))
  | _, s => .next s

/-- Starts sample(W, k) for the command and runs it as far as the answers go. -/
def startSample (p : Params) (w : Width) (k : Nat) (s : State) : Host.Outcome State Fault Refusal :=
  match enter p w k [] with
  | .value v => .next (respondValue v s)
  | .draw work d => pump p s.inputs (issueDraw work d s)
  | .stop f => .fault f

end Sys2Proof.Machine
end

