-- ==== Sys2Proof/Machine/Generator.lean ====
section
/-! DEFINITION. fixed_popcount_generator: the five GEN forms (R62 to R69). -/

namespace Sys2Proof.Machine

/-- GEN at width `w` (R62): the operand check before any draw (R71, R72), then sample(W, k), then the response. -/
def generate (p : Params) (w : Width) (k : Nat) (s : State) : Host.Outcome State Fault Refusal :=
  if popcountAbove w.bits k then .next (raiseInvalidRequest .popcountRange s)
  else startSample p w k s

/-- GEN.W8 (R63). -/
def execGenW8 (k : Nat) (s : State) : Host.Outcome State Fault Refusal := generate hardware .w8 k s

/-- GEN.W16 (R64). -/
def execGenW16 (k : Nat) (s : State) : Host.Outcome State Fault Refusal := generate hardware (.composed .w16) k s

/-- GEN.W32 (R65). -/
def execGenW32 (k : Nat) (s : State) : Host.Outcome State Fault Refusal := generate hardware (.composed .w32) k s

/-- GEN.W64 (R66). -/
def execGenW64 (k : Nat) (s : State) : Host.Outcome State Fault Refusal := generate hardware (.composed .w64) k s

/-- GEN.W128 (R67). -/
def execGenW128 (k : Nat) (s : State) : Host.Outcome State Fault Refusal := generate hardware (.composed .w128) k s

end Sys2Proof.Machine
end

