-- ==== Sys2Proof/Machine/Lookup.lean ====
section
/-! DEFINITION. The two commands that expose the byte table: ROMRD (R47) and ROMSZ (R48). -/

namespace Sys2Proof.Machine

/-- ROMRD k, i (R47): POPCOUNT_RANGE, then INDEX_RANGE, then the entry. -/
def execRomrd (k i : Nat) (s : State) : Host.Outcome State Fault Refusal :=
  if popcountAbove romPopcountLimit k then .next (raiseInvalidRequest .popcountRange s)
  else
    match sizeRom k with
    | none => .fault .lookupOutOfRange
    | some size =>
      if size.toNat ≤ i then .next (raiseInvalidRequest .indexRange s)
      else
        match romEntry k i with
        | .ok b => .next (respondValue b.toNat s)
        | .error f => .fault f

/-- ROMSZ k (R48): POPCOUNT_RANGE, then the size. -/
def execRomsz (k : Nat) (s : State) : Host.Outcome State Fault Refusal :=
  if popcountAbove romPopcountLimit k then .next (raiseInvalidRequest .popcountRange s)
  else
    match sizeRom k with
    | none => .fault .lookupOutOfRange
    | some size => .next (respondValue size.toNat s)

end Sys2Proof.Machine
end

