-- ==== Sys2Proof/Machine/Dispatch.lean ====
section
/-! DEFINITION. The dispatch of a decoded command to its meaning. -/

namespace Sys2Proof.Machine

def exec (i : Instr) (s : State) : Host.Outcome State Fault Refusal :=
  match i with
  | .genW8 k => Sys2Proof.Machine.execGenW8 k s
  | .genW16 k => Sys2Proof.Machine.execGenW16 k s
  | .genW32 k => Sys2Proof.Machine.execGenW32 k s
  | .genW64 k => Sys2Proof.Machine.execGenW64 k s
  | .genW128 k => Sys2Proof.Machine.execGenW128 k s
  | .romrd k j => Sys2Proof.Machine.execRomrd k j s
  | .romsz k => Sys2Proof.Machine.execRomsz k s

end Sys2Proof.Machine
end

