-- ==== Sys2Proof/Machine/Block.lean ====
section
/-! DEFINITION. What the block does on its own (accepting a held command, running CUR) and what it does with each input
(R12, R71, R74, R80, R82, R83). -/

namespace Sys2Proof.Machine

/-- Accepting a command latches it into CUR and moves PHASE to BUSY (R12). `ws` is what the requester goes on holding. -/
def acceptCommand (w : Word) (ws : List Word) (s : State) : State :=
  { s with
    phase := .busy
    cur := w
    cmdIn := ws
    history := s.history ++ [.accepted w] }

/-- The command in CUR is checked and run (R12, R71, R72): a word that is no command gives InvalidRequest (R43), any other
runs. -/
def runCommand (s : State) : Host.Outcome State Fault Refusal :=
  match decode hardware s.cur with
  | .invalid r => .next (raiseInvalidRequest r s)
  | .instr i => exec i s

/-- Whether the block has a move of its own: a held command in IDLE, or a command in BUSY with no draw outstanding, which
is one that has not been checked yet (R12). -/
def canMove (s : State) : Bool :=
  match s.phase with
  | .idle => !s.cmdIn.isEmpty
  | .busy => s.drawOut.isNone
  | .respond => false

/-- The block's own move. Where it has none it waits (R12, R79; log 8). -/
def blockMove (s : State) : Host.Outcome State Fault Refusal :=
  match s.phase with
  | .idle =>
    match s.cmdIn with
    | w :: ws => .next (acceptCommand w ws s)
    | [] => .next s
  | .busy =>
    match s.drawOut with
    | none => runCommand s
    | some _ => .next s
  | .respond => .next s

/-- The requester offers `w`: it is held until the block is IDLE (R82; log 5). -/
def offerCommand (w : Word) (s : State) : State := { s with cmdIn := s.cmdIn ++ [w] }

/-- The source's answer arrives (R83). With a draw request outstanding the block goes on with it; with none it is not
accepted and has no effect on the block. `rest` is what the outside world does after it. -/
def receiveAnswer (v : Byte) (rest : List Input) (s : State) : Host.Outcome State Fault Refusal :=
  match s.drawOut with
  | some _ => pump hardware (.answer v :: rest) s
  | none => .next { s with inputs := rest }

/-- Reset (R80, R19): PHASE IDLE, WORK empty, DRAW_OUT none, RSP_BUF none. CUR is unspecified, a free value (log 2). What the
requester holds offered is outside the block and stays (log 5). -/
def applyReset (s : State) : State :=
  { s with
    phase := .idle
    cur := Config.curAfterReset s.resets
    work := Work.empty
    drawOut := none
    rspBuf := none
    history := s.history ++ [.wasReset]
    resets := s.resets + 1 }

/-- What the block does with the next input when it has no move of its own. With none it waits for as long as it takes
(R79; log 8). -/
def takeInput (s : State) : Host.Outcome State Fault Refusal :=
  match s.inputs with
  | [] => .next s
  | .command w :: rest => .next (offerCommand w { s with inputs := rest })
  | .answer v :: rest => receiveAnswer v rest s
  | .take :: rest => .next (takeResponse { s with inputs := rest })
  | .reset :: rest => .next (applyReset { s with inputs := rest })
  | .tick :: rest => .next { s with inputs := rest }

/-- Removes a tick from the front of what the outside world does (log 21). -/
def dropTick (s : State) : State :=
  match s.inputs with
  | .tick :: rest => { s with inputs := rest }
  | _ => s

/-- What the outside world does next, seen from the block: a reset, a tick, or neither. -/
inductive NextInput where
  | reset
  | tick
  | other
deriving DecidableEq, Repr

/-- The class of the next input. -/
def nextInput (s : State) : NextInput :=
  match s.inputs with
  | .reset :: _ => .reset
  | .tick :: _ => .tick
  | _ => .other

/-- The state in which the very next step runs the word `w`: it has been accepted (R12) and a reset that comes next waits
for one tick (log 12, log 21). -/
def placeCommand (w : Word) (s : State) : State :=
  { s with
    phase := .busy
    cur := w
    work := Work.empty
    drawOut := none
    rspBuf := none
    inputs :=
      match s.inputs with
      | .reset :: rest => .tick :: .reset :: rest
      | l => l }

end Sys2Proof.Machine
end

