-- ==== Sys2Proof/Machine/Step.lean ====
section
/-! DEFINITION. One step of the block, and the host's way to place a command. -/

namespace Sys2Proof.Machine

/-- One step. A reset comes before everything (R80); a tick gives the block one move (log 21); else the block makes its own
move if it has one, and takes the next input if it has none (R12, R33, R82, R83). -/
def step (s : State) : Host.Outcome State Fault Refusal :=
  match nextInput s with
  | .reset => takeInput s
  | .tick => blockMove (dropTick s)
  | .other => if canMove s then blockMove s else takeInput s

/-- `s` with the word `w` accepted and in CUR, where the next step checks and runs it (log 12). -/
def State.withFetchWord (s : State) (nbits w : Nat) : State := placeCommand (BitVec.ofNat 32 (w % 2 ^ nbits)) s

end Sys2Proof.Machine
end

