-- ==== Sys2Proof/WellFormed.lean ====
section
/-! DEFINITION. Which commands have an encoding: the operands fit their fields, and the form exists (R45, R67). A `k`
above the width is well formed: it 'gets to the block and fails there' (R45). -/

namespace Sys2Proof

/-- `k` fits the 8-bit field K (R37, R45). -/
def fitsK (k : Nat) : Bool := decide (k ≤ 255)

/-- `i` fits the 7-bit field IDX (R38, R45). -/
def fitsIdx (i : Nat) : Bool := decide (i ≤ 127)

/-- GEN.W128 exists only when MAX_WIDTH = 128 (R67). -/
def hasW128 (p : Params) : Bool := decide (p.maxWidth = .w128)

/-- The command has an encoding on a block built with the parameters `p`. -/
def WellFormed (p : Params) : Instr → Bool
  | .genW8 k => fitsK k
  | .genW16 k => fitsK k
  | .genW32 k => fitsK k
  | .genW64 k => fitsK k
  | .genW128 k => hasW128 p && fitsK k
  | .romrd k i => fitsK k && fitsIdx i
  | .romsz k => fitsK k

end Sys2Proof
end

