-- ==== Sys2Proof/Machine/Assembler.lean ====
section
/-! DEFINITION. The assembler (R45): which command each statement stands for, what it refuses, and how a statement is
written. -/

namespace Sys2Proof.Machine

/-- The GEN form of a width as written; none for a width outside WIDTHS (R2, R45). -/
def genOfWidth (w k : Nat) : Option Instr :=
  match w with
  | 8 => some (.genW8 k)
  | 16 => some (.genW16 k)
  | 32 => some (.genW32 k)
  | 64 => some (.genW64 k)
  | 128 => some (.genW128 k)
  | _ => none

/-- The command of a statement (R45), whatever its operands. -/
def expandStmt : AsmStmt → Option Instr
  | .gen w k => genOfWidth w k
  | .romrd k i => some (.romrd k i)
  | .romsz k => some (.romsz k)
  | .sampleByte k => some (.genW8 k)
  | .zeros w => genOfWidth w 0
  | .ones w => genOfWidth w w

/-- The assembler: it refuses a `k` or `i` that does not fit its field and a width outside WIDTHS, and does not refuse
k > W (R45). -/
def assemble (p : Params) (a : AsmStmt) : Option Instr :=
  match expandStmt a with
  | some i => if WellFormed p i then some i else none
  | none => none

/-- The decimal digits (R45), each at the place that is its value. -/
def decimalDigits : List Char := "0123456789".toList

/-- The hexadecimal digits (R45), each at the place that is its value. A small letter is read as its capital (log 17). -/
def hexDigits : List Char := "0123456789ABCDEF".toList

/-- The value of a digit string over `digits`, whose length is the base; none where a character is no digit. -/
def readDigits (digits cs : List Char) : Option Nat :=
  (cs.mapM digits.idxOf?).map fun values => values.foldl (fun n v => digits.length * n + v) 0

/-- A number: decimal, or hexadecimal with the prefix 0x (R45). -/
def readNumber (cs : List Char) : Option Nat :=
  match cs with
  | [] => none
  | '0' :: 'x' :: d :: ds => readDigits hexDigits ((d :: ds).map Char.toUpper)
  | d :: ds => readDigits decimalDigits (d :: ds)

/-- The characters before the first `sep`, and those after it if there is one. -/
def splitAtChar (sep : Char) : List Char → List Char × Option (List Char)
  | [] => ([], none)
  | c :: cs =>
    if c = sep then ([], some cs)
    else ((c :: (splitAtChar sep cs).1), (splitAtChar sep cs).2)

/-- A list without its spaces. -/
def withoutSpaces (cs : List Char) : List Char := cs.filter (· != ' ')

/-- What is left of `cs` after the characters `lead`; none if it does not begin with them. -/
def stripLead : List Char → List Char → Option (List Char)
  | [], cs => some cs
  | _ :: _, [] => none
  | l :: ls, c :: cs => if l = c then stripLead ls cs else none

/-- A statement with no operand: ZEROS.W<w> or ONES.W<w> (R45). -/
def readPlain (m : List Char) : Option AsmStmt :=
  match stripLead ['Z', 'E', 'R', 'O', 'S', '.', 'W'] m with
  | some w => (readNumber w).map .zeros
  | none =>
    match stripLead ['O', 'N', 'E', 'S', '.', 'W'] m with
    | some w => (readNumber w).map .ones
    | none => none

/-- A statement with one operand: GEN.W<w> k, ROMSZ k or SAMPLEBYTE k (R45). -/
def readOneOperand (m : List Char) (k : Nat) : Option AsmStmt :=
  match stripLead ['G', 'E', 'N', '.', 'W'] m with
  | some w => (readNumber w).map (fun n => .gen n k)
  | none =>
    if m = ['R', 'O', 'M', 'S', 'Z'] then some (.romsz k)
    else if m = ['S', 'A', 'M', 'P', 'L', 'E', 'B', 'Y', 'T', 'E'] then some (.sampleByte k)
    else none

/-- A line of assembler: the mnemonic, a space, and the operands with commas between them (R45; log 17). -/
def readStmt (line : List Char) : Option AsmStmt :=
  match splitAtChar ' ' line with
  | (m, none) => readPlain m
  | (m, some operands) =>
    match splitAtChar ',' (withoutSpaces operands) with
    | (a, none) =>
      match readNumber a with
      | some k => readOneOperand m k
      | none => none
    | (a, some b) =>
      if m = ['R', 'O', 'M', 'R', 'D'] then
        match readNumber a, readNumber b with
        | some k, some i => some (.romrd k i)
        | _, _ => none
      else none

end Sys2Proof.Machine
end

