-- ==== Sys2Proof/Machine/Recursion.lean ====
section
/-! DEFINITION. The recursive definition of sample(W, k) as the spec writes it (R49, R53 to R58), with its draws left open.
The block runs Machine/Composer.lean; R17 asks that the two agree for every answer sequence, and the obligations state it. -/

namespace Sys2Proof.Machine

/-- A computation that asks the random source: it returns a value, breaks a contract, or makes one draw request and goes on
with the answer. -/
inductive DrawTree where
  | ret (v : Nat)
  | violate (f : Fault)
  | ask (d : DrawReq) (go : Nat → DrawTree)

/-- First `t`, then `g` with its value. -/
def DrawTree.andThen (t : DrawTree) (g : Nat → DrawTree) : DrawTree :=
  match t with
  | .ret v => g v
  | .violate f => .violate f
  | .ask d go => .ask d (fun a => (go a).andThen g)

/-- The ROM entry that sampleByte returns. -/
def entryTree (k i : Nat) : DrawTree :=
  match romEntry k i with
  | .ok b => .ret b.toNat
  | .error f => .violate f

/-- sampleByte(k) (R49). -/
def sampleByteTree (p : Params) (k : Nat) : DrawTree :=
  match sizeRom k with
  | none => .violate .lookupOutOfRange
  | some size =>
    if p.skipSingletonByteDraw && decide (size = 1#7) then entryTree k 0
    else .ask (indexRequest size.toNat) (fun i => entryTree k i)

/-- compose(W, k) over the sampler of a half (R53 to R57): the shortcuts, the split, the high half, the low half. -/
def composeTree (c : ComposerWidth) (sampleHalf : Nat → DrawTree) (k : Nat) : DrawTree :=
  if k = 0 then .ret 0
  else if k = c.bits then .ret (allOnes c)
  else
    .ask (splitRequest c k) fun h =>
      (sampleHalf h).andThen fun hv =>
        (sampleHalf (k - h)).andThen fun lv =>
          .ret (concatHalves c hv lv)

/-- sample(W, k) (R56): width 8 goes to the byte sampler, every other width to the composer. -/
def sampleTree (p : Params) : Width → Nat → DrawTree
  | .w8 => sampleByteTree p
  | .composed .w16 => composeTree .w16 (sampleByteTree p)
  | .composed .w32 => composeTree .w32 (composeTree .w16 (sampleByteTree p))
  | .composed .w64 => composeTree .w64 (composeTree .w32 (composeTree .w16 (sampleByteTree p)))
  | .composed .w128 =>
    composeTree .w128 (composeTree .w64 (composeTree .w32 (composeTree .w16 (sampleByteTree p))))

/-- What becomes of a computation under a sequence of answers. -/
inductive Followed where
  /-- it ends with the value `v`: the requests it made, and the answers it did not use -/
  | value (v : Nat) (draws : List DrawReq) (unused : List Byte)
  /-- an answer outside the range of the last request aborts it (R73) -/
  | aborted (draws : List DrawReq) (unused : List Byte)
  /-- the answers are used up and the last request waits (R79) -/
  | waiting (draws : List DrawReq)
  /-- it broke a contract -/
  | stopped (f : Fault)
deriving DecidableEq, Repr

/-- Puts a request before the ones already listed. -/
def Followed.after (d : DrawReq) : Followed → Followed
  | .value v ds as => .value v (d :: ds) as
  | .aborted ds as => .aborted (d :: ds) as
  | .waiting ds => .waiting (d :: ds)
  | .stopped f => .stopped f

/-- Gives the computation the answers one by one, in order (R10, R58). -/
def DrawTree.follow : DrawTree → List Byte → Followed
  | .ret v, as => .value v [] as
  | .violate f, _ => .stopped f
  | .ask d _, [] => .waiting [d]
  | .ask d go, a :: as =>
    if d.inRange a then (DrawTree.follow (go a.toNat) as).after d else .aborted [d] as

end Sys2Proof.Machine
end

