-- ==== Sys2Proof/Safety.lean ====
section
/-! DEFINITION. What the claims are stated in: the static check of R72 as one function, the invariant of a run, the order
of events on the channels, and what is counted of a run's draws. -/

namespace Sys2Proof.Machine

/-- check(CMD) of R72, as the spec writes it: the first reason that applies to the word, on a block with the parameters
`p`. It looks at the word alone. -/
def staticCheck (p : Params) (w : Word) : Option Reason :=
  let op := w.extractLsb' 30 2
  let k := (w.extractLsb' 0 8).toNat
  let idx := (w.extractLsb' 16 7).toNat
  let wsel := (w.extractLsb' 8 3).toNat
  if op = 0b11#2 then some .invalidOp
  else if w.extractLsb' 23 7 ≠ 0#7 ∨ w.extractLsb' 11 5 ≠ 0#5 then some .reservedNonzero
  else if op = 0b00#2 ∧ idx ≠ 0 then some .reservedNonzero
  else if op ≠ 0b00#2 ∧ wsel ≠ 0 then some .reservedNonzero
  else if op = 0b10#2 ∧ idx ≠ 0 then some .reservedNonzero
  else if op = 0b00#2 then
    if 4 < wsel ∨ (wsel = 4 ∧ p.maxWidth = .w64) then some .unsupportedWidth
    else if (8 <<< wsel) < k then some .popcountRange
    else none
  else if 8 < k then some .popcountRange
  else if op = 0b01#2 ∧ Nat.choose 8 k ≤ idx then some .indexRange
  else none

/-- The width and popcount of a GEN command, none for the ROM commands. -/
def genOperands : Instr → Option (Width × Nat)
  | .genW8 k => some (.w8, k)
  | .genW16 k => some (.composed .w16, k)
  | .genW32 k => some (.composed .w32, k)
  | .genW64 k => some (.composed .w64, k)
  | .genW128 k => some (.composed .w128, k)
  | .romrd _ _ => none
  | .romsz _ => none

/-- `v` is a value that sample(W, k) may return: popcount k, below 2^W (R59). -/
def isSample (w : Width) (k v : Nat) : Bool :=
  decide (k ≤ w.bits) && decide (popcount w.bits v = k) && decide (v < 2 ^ w.bits)

/-- The frames, the innermost first, wait for the value of sample(W, k), and the outermost of them computes
sample(gw, gk): each frame's split is drawn and in its range, what it waits for is its high half with popcount h or its low
half with popcount k − h, and a high half that is known has popcount h (R17, R54, R56, R59). -/
def framesWaitFor : List Frame → Width → Nat → Width → Nat → Bool
  | [], w, k, gw, gk => decide (w = gw) && decide (k = gk)
  | f :: fs, w, k, gw, gk =>
    decide (w = f.width.half) && decide (0 < f.k) && decide (f.k < f.width.bits) &&
      (match f.split with
        | none => false
        | some h =>
          decide (splitLo f.width f.k ≤ h) && decide (h ≤ splitHi f.width f.k) &&
            (match f.high with
              | none => decide (k = h)
              | some hv => decide (k = f.k - h) && isSample f.width.half h hv)) &&
      framesWaitFor fs (.composed f.width) f.k gw gk

/-- WORK is a position of sample(gw, gk) that waits for the answer to `d` (R17): at the byte sampler, or at a split. -/
def workWaitsFor (w : Work) (d : DrawReq) (gw : Width) (gk : Nat) : Bool :=
  match w.sampler, w.frames with
  | some k, fs =>
    decide (k ≤ 8) && decide (d = indexRequest (Nat.choose 8 k)) && framesWaitFor fs .w8 k gw gk
  | none, [] => false
  | none, f :: fs =>
    decide (f.split = none) && decide (f.high = none) && decide (0 < f.k) && decide (f.k < f.width.bits) &&
      decide (d = splitRequest f.width f.k) && framesWaitFor fs (.composed f.width) f.k gw gk

/-- The response `r` is one that the rules allow for the command word `w`: the reason of the static check if it has one; else
a sample of the width and popcount asked for, or DRAW_RANGE, for GEN; the entry or the size for the ROM commands (R40, R47,
R48, R59, R72). -/
def allowedResponse (w : Word) (r : Response) : Bool :=
  match staticCheck hardware w with
  | some reason => decide (r = .error reason)
  | none =>
    match decode hardware w with
    | .invalid _ => false
    | .instr i =>
      match i, genOperands i with
      | _, some (gw, gk) =>
        match r with
        | .ok v => isSample gw gk v.toNat
        | .error reason => decide (reason = .drawRange)
      | .romrd k j, none =>
        match romEntry k j with
        | .ok b => decide (r = .ok (BitVec.ofNat 128 b.toNat))
        | .error _ => false
      | .romsz k, none => decide (r = .ok (BitVec.ofNat 128 (Nat.choose 8 k)))
      | _, none => false

/-- The invariant of a run (R12, R17, R33, R59): what each phase says of WORK, DRAW_OUT and RSP_BUF, that a draw request is
outstanding only at its place in the composition of the command in CUR, and that a response held answers that command. -/
def State.wellPlaced (s : State) : Bool :=
  match s.phase with
  | .idle => decide (s.work = Work.empty) && decide (s.drawOut = none) && decide (s.rspBuf = none)
  | .busy =>
    decide (s.rspBuf = none) &&
      match s.drawOut with
      | none => decide (s.work = Work.empty)
      | some d =>
        match staticCheck hardware s.cur, decode hardware s.cur with
        | none, .instr i =>
          match genOperands i with
          | some (gw, gk) => workWaitsFor s.work d gw gk
          | none => false
        | _, _ => false
  | .respond =>
    decide (s.work = Work.empty) && decide (s.drawOut = none) &&
      match s.rspBuf with
      | none => false
      | some r => allowedResponse s.cur r

/-- The draw requests of a record of events, in order. -/
def drawsOf : List Event → List DrawReq
  | [] => []
  | .drawRequested d :: es => d :: drawsOf es
  | _ :: es => drawsOf es

/-- How many responses a record of events holds. -/
def responseCount : List Event → Nat
  | [] => 0
  | .responded _ :: es => responseCount es + 1
  | _ :: es => responseCount es

/-- How many answers a draw request's range has. -/
def DrawReq.rangeSize (d : DrawReq) : Nat := d.hi.toNat + 1 - d.lo.toNat

/-- The product of the ranges of the draws. With a source that answers uniformly, the probability of the answers given is its
inverse (R60, whose P(v) is a product of such factors; log 16). -/
def rangeProduct : List DrawReq → Nat
  | [] => 1
  | d :: ds => d.rangeSize * rangeProduct ds

/-- The answers as the outside world's inputs. -/
def answerInputs (as : List Byte) : List Input := as.map .answer

/-- The events of a walk that issued the requests `ds` and got the answers `as`, each request before its answer (R33 b). -/
def drawEvents : List DrawReq → List Byte → List Event
  | d :: ds, a :: as => .drawRequested d :: .drawAnswered a :: drawEvents ds as
  | _, _ => []

/-- The answers without those to a request over one value: what the source is asked for when such requests are not made
(R4, R51). -/
def dropSingletons : List DrawReq → List Byte → List Byte
  | d :: ds, a :: as => if d.rangeSize = 1 then dropSingletons ds as else a :: dropSingletons ds as
  | _, _ => []

/-- Where the channels stand: no command in the block, a command running, a draw request outstanding, or a response
offered (R12, R33). -/
inductive ChannelState where
  | idle
  | running (w : Word)
  | asking (w : Word) (d : DrawReq)
  | offering (w : Word) (r : Response)
deriving DecidableEq, Repr

/-- The order of events that R12 and R33 allow: one command at a time, one draw request outstanding at a time, the next request
or the response only after the answer, one response a command, and that response taken before the next command. A reset may
come anywhere (R80). -/
def channelStep : ChannelState → Event → Option ChannelState
  | _, .wasReset => some .idle
  | .idle, .accepted w => some (.running w)
  | .running w, .drawRequested d => some (.asking w d)
  | .running w, .responded r => some (.offering w r)
  | .asking w _, .drawAnswered _ => some (.running w)
  | .offering _ r, .taken r' => if r' = r then some .idle else none
  | _, _ => none

/-- Where the channels stand after a record of events; none if the record breaks the order. -/
def channelAfter : ChannelState → List Event → Option ChannelState
  | c, [] => some c
  | c, e :: es =>
    match channelStep c e with
    | some c' => channelAfter c' es
    | none => none

/-- Where the state says that the channels stand. -/
def State.channel (s : State) : ChannelState :=
  match s.phase with
  | .idle => .idle
  | .busy =>
    match s.drawOut with
    | none => .running s.cur
    | some d => .asking s.cur d
  | .respond =>
    match s.rspBuf with
    | none => .idle
    | some r => .offering s.cur r

/-- The record keeps the order of R12 and R33 and has led to where the state stands. -/
def State.historyFits (s : State) : Bool := decide (channelAfter .idle s.history = some s.channel)

/-- The next input is neither a reset nor a tick, so the step is the block's own move or takes that input. -/
def State.undisturbed (s : State) : Bool := decide (nextInput s = .other)

/-- An input that ends the wait for a draw answer: an answer, or a reset (R79). -/
def endsTheWait : Input → Bool
  | .answer _ => true
  | .reset => true
  | _ => false

/-- Runs a sequence of steps: `n` steps of `step` as long as there is a next state. -/
def runSteps : Nat → State → Host.Outcome State Fault Refusal
  | 0, s => .next s
  | n + 1, s =>
    match step s with
    | .next t => runSteps n t
    | .fault f => .fault f
    | .refused r => .refused r

end Sys2Proof.Machine
end

