-- ==== Sys2Proof/Certificates/Slice0/Obligations.lean ====
section
/-! DEFINITION. The statements for the provers. Each docstring says which rule of spec/ it formalises. -/

open Sys2Proof Sys2Proof.Machine

/-! ## Encoding -/

/-- R34, R42, R45: every well-formed command, on a block with either MAX_WIDTH, decodes from its own encoding. -/
def Obligations.EncodedCommandsDecodeBack : Prop :=
  ∀ (p : Params) (i : Instr), WellFormed p i = true → decode p (encode i) = .instr i

/-- R34, R39, R44: a word that decodes to a command is that command's encoding (no bit of a word is ignored), and the command
is well formed. -/
def Obligations.DecodedWordsAreTheirEncodings : Prop :=
  ∀ (p : Params) (w : Word) (i : Instr), decode p w = .instr i → encode i = w ∧ WellFormed p i = true

/-- R42: a word matches a row of the opcode map exactly when it decodes to a command of that row; a word that matches no row
is invalid; and no word matches two rows. -/
def Obligations.DecoderFollowsTheOpcodeMap : Prop :=
  (∀ (w : Word) (r : OpcodeRow), r ∈ opcodeMap →
    (r.accepts w = true ↔ ∃ i, decode hardware w = .instr i ∧ rowOf i = r)) ∧
  (∀ w : Word, (∀ r ∈ opcodeMap, r.accepts w = false) ↔ ∃ e, decode hardware w = .invalid e) ∧
  (∀ (w : Word) (r r' : OpcodeRow), r ∈ opcodeMap → r' ∈ opcodeMap → r.accepts w = true → r'.accepts w = true → r = r')

/-- The words that the examples of R47, R48, R63 to R67 and the table of 95_test_vectors.md §5 give, field by field, decode to
what they name. -/
def Obligations.SpecWordsDecodeAsWritten : Prop :=
  decode hardware 0b00_0000000_0000000_00000_000_00000010#32 = .instr (.genW8 2) ∧
  decode hardware 0b00_0000000_0000000_00000_001_00001111#32 = .instr (.genW16 15) ∧
  decode hardware 0b00_0000000_0000000_00000_010_00001011#32 = .instr (.genW32 11) ∧
  decode hardware 0b00_0000000_0000000_00000_011_00000001#32 = .instr (.genW64 1) ∧
  decode hardware 0b00_0000000_0000000_00000_100_01111111#32 = .instr (.genW128 127) ∧
  decode hardware 0b01_0000000_0000101_00000_000_00000010#32 = .instr (.romrd 2 5) ∧
  decode hardware 0b10_0000000_0000000_00000_000_00000011#32 = .instr (.romsz 3) ∧
  decode hardware 0xC0000002#32 = .invalid .invalidOp ∧
  decode hardware 0x00001102#32 = .invalid .reservedNonzero ∧
  decode hardware 0x00000502#32 = .invalid .unsupportedWidth

/-- R36 whole: for GEN with its reserved fields and IDX zero, W = 8 << WSEL for WSEL ≤ 4, where WSEL = 100 is supported only
when MAX_WIDTH = 128, and k is the field K; any other WSEL gives UNSUPPORTED_WIDTH. -/
def Obligations.WselSelectsTheWidth : Prop :=
  ∀ (p : Params) (w : Word), fieldOp w = 0b00#2 → fieldRsvA w = 0 → fieldRsvB w = 0 → fieldIdx w = 0 →
    if (fieldWsel w).toNat < 4 ∨ ((fieldWsel w).toNat = 4 ∧ p.maxWidth = .w128) then
      ∃ i gw, decode p w = .instr i ∧ genOperands i = some (gw, (fieldK w).toNat) ∧ gw.bits = 8 <<< (fieldWsel w).toNat
    else decode p w = .invalid .unsupportedWidth

/-- R39 with the priority of R72: unless OP = 11, a word with a nonzero reserved or unused field is RESERVED_NONZERO. -/
def Obligations.ReservedFieldsAreNeverIgnored : Prop :=
  ∀ (p : Params) (w : Word), fieldOp w ≠ 0b11#2 →
    (fieldRsvA w ≠ 0 ∨ fieldRsvB w ≠ 0 ∨ (fieldIdx w ≠ 0 ∧ fieldOp w ≠ 0b01#2) ∨ (fieldWsel w ≠ 0 ∧ fieldOp w ≠ 0b00#2)) →
    decode p w = .invalid .reservedNonzero

/-- R45: the pseudo-instructions expand to the GEN command named there; the assembler refuses exactly a k or i that does not fit
its field and a width outside WIDTHS, and not a k above W; and a command it gives decodes from its encoding. -/
def Obligations.AssemblerFollowsItsTable : Prop :=
  (∀ p k, assemble p (.sampleByte k) = assemble p (.gen 8 k)) ∧
  (∀ p w, assemble p (.zeros w) = assemble p (.gen w 0)) ∧
  (∀ p w, assemble p (.ones w) = assemble p (.gen w w)) ∧
  (∀ w k, (assemble hardware (.gen w k)).isSome = true ↔ (w = 8 ∨ w = 16 ∨ w = 32 ∨ w = 64 ∨ w = 128) ∧ k ≤ 255) ∧
  (∀ w k i, assemble hardware (.gen w k) = some i →
    ∃ gw, genOperands i = some (gw, k) ∧ gw.bits = w ∧ decode hardware (encode i) = .instr i) ∧
  (∀ p k i, assemble p (.romrd k i) = if k ≤ 255 ∧ i ≤ 127 then some (.romrd k i) else none) ∧
  (∀ p k, assemble p (.romsz k) = if k ≤ 255 then some (.romsz k) else none)

/-! ## The byte table -/

/-- R21: bucket k starts at Σ_{j<k} C(8,j), has C(8,k) entries, and holds the bytes of popcount k in ascending order. -/
def Obligations.RomIsLaidOutBucketByBucket : Prop :=
  ∀ k ≤ 8,
    (offsetRom k).map BitVec.toNat = some ((List.range k).map (Nat.choose 8)).sum ∧
    (sizeRom k).map BitVec.toNat = some (Nat.choose 8 k) ∧
    (lookup k).map (List.map BitVec.toNat) = some ((List.range 256).filter (fun v => popcount 8 v = k))

/-- R22 and R9: SIZE_ROM[k] = C(8,k) = 1, 8, 28, 56, 70, 56, 28, 8, 1; the sum is 256; the largest is 70, which fits in 7
bits, and the largest OFFSET_ROM entry is 255, which fits in 8. -/
def Obligations.SizesAreTheBinomials : Prop :=
  sizeRomTable.map BitVec.toNat = [1, 8, 28, 56, 70, 56, 28, 8, 1] ∧
  sizeRomTable.map BitVec.toNat = (List.range 9).map (Nat.choose 8) ∧
  (sizeRomTable.map BitVec.toNat).sum = 256 ∧
  (∀ x ∈ sizeRomTable, x.toNat ≤ 70) ∧ 70#7 ∈ sizeRomTable ∧
  (∀ x ∈ offsetRomTable, x.toNat ≤ 255) ∧ 255#8 ∈ offsetRomTable

/-- R24: every entry of bucket k has popcount k; the bucket has C(8,k) entries, strictly increasing and so distinct; and
POP_ROM holds all 256 bytes, each once. -/
def Obligations.RomIsAPermutationByPopcount : Prop :=
  (∀ k ≤ 8, ∃ l, lookup k = some l ∧ l.length = Nat.choose 8 k ∧ (∀ b ∈ l, popcount 8 b.toNat = k) ∧
    l.Pairwise (fun a b => a.toNat < b.toNat)) ∧
  popRom.length = 256 ∧ popRom.Nodup ∧ (∀ n < 256, BitVec.ofNat 8 n ∈ popRom)

/-- R46, R47, R49: for k in 0..8 the entry that ROMRD and the byte sampler read at index i is the i-th of lookup(k); for no
other k is there a bucket, and reading one faults (93_implementation_defined.md U1). -/
def Obligations.EntriesComeFromTheirBucket : Prop :=
  (∀ k ≤ 8, ∃ l, lookup k = some l ∧ ∀ i b, (i < Nat.choose 8 k ∧ romEntry k i = .ok b) ↔ l[i]? = some b) ∧
  (∀ k i, 8 < k → lookup k = none ∧ romEntry k i = .error .lookupOutOfRange)

/-- R52: the answers 0..C(8,k)−1 map one-to-one onto the bytes of popcount k. -/
def Obligations.AnswersMapOneToOneOntoTheBucket : Prop :=
  ∀ k ≤ 8,
    (∀ i < Nat.choose 8 k, ∃ b, romEntry k i = .ok b ∧ popcount 8 b.toNat = k) ∧
    (∀ b : Byte, popcount 8 b.toNat = k → ∃ i < Nat.choose 8 k, romEntry k i = .ok b ∧
      ∀ j < Nat.choose 8 k, romEntry k j = .ok b → j = i)

/-! ## ROMRD and ROMSZ -/

/-- R47: with k ≤ 8 and i < C(8,k), ROMRD completes: STATUS 0 with the POP_ROM entry at OFFSET_ROM[k] + i zero-extended, no
draw, and nothing else of the state changes. -/
def Obligations.RomrdAnswersTheEntry : Prop :=
  ∀ (s : State) (k i : Nat), k ≤ 8 → i < Nat.choose 8 k →
    ∃ base b, offsetRom k = some base ∧ romRead (base.toNat + i) = some b ∧
      exec (.romrd k i) s = .next
        { s with
          phase := .respond
          work := Work.empty
          drawOut := none
          rspBuf := some (.ok (b.zeroExtend 128))
          history := s.history ++ [.responded (.ok (b.zeroExtend 128))] }

/-- R47 and R72: ROMRD with k > 8 raises POPCOUNT_RANGE whatever i is; with k ≤ 8 and i ≥ C(8,k) it raises INDEX_RANGE. -/
def Obligations.RomrdRaisesItsRangeErrors : Prop :=
  ∀ (s : State) (k i : Nat),
    (8 < k → exec (.romrd k i) s = .next (raiseInvalidRequest .popcountRange s)) ∧
    (k ≤ 8 → Nat.choose 8 k ≤ i → exec (.romrd k i) s = .next (raiseInvalidRequest .indexRange s))

/-- R48: with k ≤ 8, ROMSZ completes: STATUS 0 with C(8,k), no draw, and nothing else of the state changes. -/
def Obligations.RomszAnswersTheSize : Prop :=
  ∀ (s : State) (k : Nat), k ≤ 8 →
    exec (.romsz k) s = .next
      { s with
        phase := .respond
        work := Work.empty
        drawOut := none
        rspBuf := some (.ok (BitVec.ofNat 128 (Nat.choose 8 k)))
        history := s.history ++ [.responded (.ok (BitVec.ofNat 128 (Nat.choose 8 k)))] }

/-- R48: ROMSZ with k > 8 raises POPCOUNT_RANGE. -/
def Obligations.RomszRaisesPopcountRange : Prop :=
  ∀ (s : State) (k : Nat), 8 < k → exec (.romsz k) s = .next (raiseInvalidRequest .popcountRange s)

/-! ## The GEN commands -/

/-- R63, R49, R50: GEN.W8 with k ≤ 8 issues one INDEX draw over [0, C(8,k) − 1], and on an answer in that range completes: STATUS 0
with POP_ROM[OFFSET_ROM[k] + answer], the answer used unchanged. -/
def Obligations.GenW8SamplesOneByte : Prop :=
  ∀ (s : State) (k : Nat) (a : Byte) (rest : List Input), k ≤ 8 → s.inputs = .answer a :: rest → a.toNat < Nat.choose 8 k →
    ∃ base b, offsetRom k = some base ∧ romRead (base.toNat + a.toNat) = some b ∧
      exec (.genW8 k) s = .next
        { s with
          phase := .respond
          work := Work.empty
          drawOut := none
          rspBuf := some (.ok (b.zeroExtend 128))
          inputs := rest
          history := s.history ++
            [.drawRequested { kind := .index, lo := 0, hi := BitVec.ofNat 8 (Nat.choose 8 k - 1) }, .drawAnswered a,
              .responded (.ok (b.zeroExtend 128))] }

/-- R64: GEN.W16 with 0 < k < 16 issues exactly three draws, SPLIT [max(0,k−8), min(k,8)], INDEX for the high byte and INDEX
for the low byte, and on answers in range completes with the high byte of popcount h above the low byte of popcount k − h. -/
def Obligations.GenW16SplitsThenSamplesTwoBytes : Prop :=
  ∀ (s : State) (k : Nat) (h a b : Byte) (rest : List Input), 0 < k → k < 16 →
    s.inputs = .answer h :: .answer a :: .answer b :: rest →
    k - 8 ≤ h.toNat → h.toNat ≤ min k 8 → a.toNat < Nat.choose 8 h.toNat → b.toNat < Nat.choose 8 (k - h.toNat) →
    ∃ hb lb v, romEntry h.toNat a.toNat = .ok hb ∧ romEntry (k - h.toNat) b.toNat = .ok lb ∧
      v = BitVec.ofNat 128 (hb.toNat * 256 + lb.toNat) ∧
      exec (.genW16 k) s = .next
        { s with
          phase := .respond
          work := Work.empty
          drawOut := none
          rspBuf := some (.ok v)
          inputs := rest
          history := s.history ++
            [.drawRequested { kind := .split, lo := BitVec.ofNat 8 (k - 8), hi := BitVec.ofNat 8 (min k 8) }, .drawAnswered h,
              .drawRequested { kind := .index, lo := 0, hi := BitVec.ofNat 8 (Nat.choose 8 h.toNat - 1) }, .drawAnswered a,
              .drawRequested { kind := .index, lo := 0, hi := BitVec.ofNat 8 (Nat.choose 8 (k - h.toNat) - 1) },
              .drawAnswered b, .responded (.ok v)] }

/-- R68 whole: for every GEN form, k = 0 gives 0 and k = W gives 2^W − 1. For W ≥ 16 the command completes with no draw
whatever the outside does; for W = 8 it completes after one draw over [0, 0], answered 0. -/
def Obligations.BoundaryValuesOfEveryWidth : Prop :=
  (∀ (s : State) (i : Instr) (c : ComposerWidth) (k : Nat), genOperands i = some (.composed c, k) → k = 0 ∨ k = c.bits →
    ∃ v : BitVec 128, (k = 0 → v = 0) ∧ (k = c.bits → v.toNat = 2 ^ c.bits - 1) ∧
      exec i s = .next
        { s with
          phase := .respond
          work := Work.empty
          drawOut := none
          rspBuf := some (.ok v)
          history := s.history ++ [.responded (.ok v)] }) ∧
  (∀ (s : State) (k : Nat) (rest : List Input), k = 0 ∨ k = 8 → s.inputs = .answer 0 :: rest →
    ∃ v : BitVec 128, (k = 0 → v = 0) ∧ (k = 8 → v.toNat = 2 ^ 8 - 1) ∧
      exec (.genW8 k) s = .next
        { s with
          phase := .respond
          work := Work.empty
          drawOut := none
          rspBuf := some (.ok v)
          inputs := rest
          history := s.history ++
            [.drawRequested { kind := .index, lo := 0, hi := 0 }, .drawAnswered 0, .responded (.ok v)] })

/-- R17, R56, R58, R62: on a block with any parameters, for k ≤ W and any answers, GEN does what the recursive definition of
sample(W, k) does with them: the same draw requests in the same order, each followed by its answer, and the same result; an answer
out of range aborts with DRAW_RANGE; where the answers end, it waits with the last request outstanding. -/
def Obligations.GenRunsTheRecursiveDefinition : Prop :=
  ∀ (p : Params) (w : Width) (k : Nat) (s : State) (as : List Byte) (rest : List Input), k ≤ w.bits →
    s.inputs = answerInputs as ++ rest →
    match (sampleTree p w k).follow as with
    | .value v ds unused =>
      generate p w k s = .next
        { s with
          phase := .respond
          work := Work.empty
          drawOut := none
          rspBuf := some (.ok (BitVec.ofNat 128 v))
          inputs := answerInputs unused ++ rest
          history := s.history ++ drawEvents ds as ++ [.responded (.ok (BitVec.ofNat 128 v))] }
    | .aborted ds unused =>
      generate p w k s = .next
        { s with
          phase := .respond
          work := Work.empty
          drawOut := none
          rspBuf := some (.error .drawRange)
          inputs := answerInputs unused ++ rest
          history := s.history ++ drawEvents ds as ++ [.responded (.error .drawRange)] }
    | .waiting ds =>
      (∀ v l, rest ≠ .answer v :: l) →
        ∃ work d, ds.getLast? = some d ∧
          generate p w k s = .next
            { s with
              phase := .busy
              work := work
              drawOut := some d
              inputs := rest
              history := s.history ++ drawEvents ds as ++ [.drawRequested d] }
    | .stopped _ => False

/-- R62 to R67: each of the five GEN forms with k ≤ W completes on every answer sequence that leads its recursive definition to a
value: STATUS 0 with that value, which has k bits set and fits W bits. -/
def Obligations.GenCompletesOnAnswersInRange : Prop :=
  ∀ (i : Instr) (w : Width) (k : Nat) (s : State) (as unused : List Byte) (rest : List Input) (v : Nat) (ds : List DrawReq),
    genOperands i = some (w, k) → k ≤ w.bits → s.inputs = answerInputs as ++ rest →
    (sampleTree hardware w k).follow as = .value v ds unused →
    ∃ r : BitVec 128, r.toNat = v ∧ popcount w.bits v = k ∧ v < 2 ^ w.bits ∧
      exec i s = .next
        { s with
          phase := .respond
          work := Work.empty
          drawOut := none
          rspBuf := some (.ok r)
          inputs := answerInputs unused ++ rest
          history := s.history ++ drawEvents ds as ++ [.responded (.ok r)] }

/-- R59: in whatever state a GEN command runs, a result it responds has exactly k bits set and fits W bits. -/
def Obligations.GenResultHasTheWeightAskedFor : Prop :=
  ∀ (i : Instr) (w : Width) (k : Nat) (s t : State) (v : BitVec 128), genOperands i = some (w, k) →
    exec i s = .next t → t.phase = .respond → t.rspBuf = some (.ok v) →
    k ≤ w.bits ∧ popcount w.bits v.toNat = k ∧ v.toNat < 2 ^ w.bits ∧ popcount 128 v.toNat = k

/-- R60: each value of W bits with k bits set has exactly one answer sequence that gives it. -/
def Obligations.EveryValueHasOneAnswerSequence : Prop :=
  ∀ (w : Width) (k v : Nat), k ≤ w.bits → v < 2 ^ w.bits → popcount w.bits v = k →
    ∃ as ds, (sampleTree hardware w k).follow as = .value v ds [] ∧
      ∀ as' ds', (sampleTree hardware w k).follow as' = .value v ds' [] → as' = as

/-- R60: where W = 8, or k is one of 0, 1, W − 1 and W, the ranges of the draws of every answer sequence that gives a value have
the product C(W,k) (each value equally likely under a uniform source); for W = 16 and k = 2 they have 84 for 0x0003 and 192 for
0x0180, not C(16,2) = 120. -/
def Obligations.DrawRangesMultiplyToTheBinomialAtTheEnds : Prop :=
  (∀ (w : Width) (k : Nat) (as u : List Byte) (v : Nat) (ds : List DrawReq), k ≤ w.bits →
    w = .w8 ∨ k = 0 ∨ k = 1 ∨ k = w.bits - 1 ∨ k = w.bits →
    (sampleTree hardware w k).follow as = .value v ds u → rangeProduct ds = Nat.choose w.bits k) ∧
  (∃ ds, (sampleTree hardware (.composed .w16) 2).follow [0, 0, 0] = .value 0x0003 ds [] ∧ rangeProduct ds = 84) ∧
  (∃ ds, (sampleTree hardware (.composed .w16) 2).follow [1, 0, 7] = .value 0x0180 ds [] ∧ rangeProduct ds = 192) ∧
  Nat.choose 16 2 = 120

/-- R61: GEN at width W issues at most W/4 − 1 draws, GEN.W16 with 0 < k < 16 that ends in a value exactly three, and a walk never
breaks the table's contract. -/
def Obligations.DrawsStayWithinTheirBound : Prop :=
  ∀ (w : Width) (k : Nat) (as : List Byte), k ≤ w.bits →
    match (sampleTree hardware w k).follow as with
    | .value _ ds _ => ds.length ≤ w.bits / 4 - 1 ∧ (w = .composed .w16 → 0 < k → k < 16 → ds.length = 3)
    | .aborted ds _ => ds.length ≤ w.bits / 4 - 1
    | .waiting ds => ds.length ≤ w.bits / 4 - 1
    | .stopped _ => False

/-- R69: an invalid GEN word issues no draw request, consumes nothing, and is answered with STATUS ≠ 0, RESULT 0 and no value. -/
def Obligations.InvalidGenIssuesNoDrawAndNoValue : Prop :=
  ∀ (s : State) (e : Reason), s.phase = .busy → s.drawOut = none → s.undisturbed = true → fieldOp s.cur = 0b00#2 →
    staticCheck hardware s.cur = some e →
    ∃ t r, step s = .next t ∧ t.phase = .respond ∧ t.rspBuf = some r ∧ r.status ≠ 0 ∧ r.result = 0 ∧ r.value? = none ∧
      t.inputs = s.inputs ∧ drawsOf t.history = drawsOf s.history ∧ t.drawOut = none ∧ t.work = Work.empty

/-- R4: a block built with SKIP_SINGLETON_BYTE_DRAW = true gives the same result from the same answers less those to the
requests over one value, and makes the same requests less those. -/
def Obligations.SkippingSingletonDrawsKeepsTheResult : Prop :=
  ∀ (m : MaxWidth) (w : Width) (k : Nat) (as : List Byte) (v : Nat) (ds : List DrawReq), k ≤ w.bits →
    (sampleTree { maxWidth := m, skipSingletonByteDraw := false } w k).follow as = .value v ds [] →
    (sampleTree { maxWidth := m, skipSingletonByteDraw := true } w k).follow (dropSingletons ds as) =
      .value v (ds.filter (fun d => d.rangeSize ≠ 1)) []

/-- R54: for 0 < k < W, 0 ≤ lo < hi ≤ half ≤ 64; h is in [lo, hi] exactly when h ≤ half and 0 ≤ k − h ≤ half; and the range has
min(k, W − k, half) + 1 values. The 8-bit fields of the SPLIT request hold lo and hi unchanged. -/
def Obligations.SplitRangeIsTheFeasibleOne : Prop :=
  ∀ (c : ComposerWidth) (k : Nat), 0 < k → k < c.bits →
    splitLo c k < splitHi c k ∧ splitHi c k ≤ c.half.bits ∧ c.half.bits ≤ 64 ∧ c.bits = 2 * c.half.bits ∧
    (∀ h, (splitLo c k ≤ h ∧ h ≤ splitHi c k) ↔ (h ≤ c.half.bits ∧ h ≤ k ∧ k - h ≤ c.half.bits)) ∧
    splitHi c k - splitLo c k + 1 = min k (min (c.bits - k) c.half.bits) + 1 ∧
    (splitRequest c k).kind = .split ∧ (splitRequest c k).lo.toNat = splitLo c k ∧ (splitRequest c k).hi.toNat = splitHi c k

/-- R57: two halves below 2^half concatenate to a value below 2^W whose upper bits are the high half and whose lower bits are
the low half. -/
def Obligations.HalvesConcatenateWithoutOverlap : Prop :=
  ∀ (c : ComposerWidth) (hv lv : Nat), hv < 2 ^ c.half.bits → lv < 2 ^ c.half.bits →
    concatHalves c hv lv < 2 ^ c.bits ∧ concatHalves c hv lv = hv * 2 ^ c.half.bits + lv ∧
    concatHalves c hv lv / 2 ^ c.half.bits = hv ∧ concatHalves c hv lv % 2 ^ c.half.bits = lv

/-- R13 to R16, R25, R33, and the frame of every command: in whatever state it runs, a command changes neither CUR nor what the
requester holds nor the count of resets; of the inputs it takes answers from the front and nothing else; and it adds to the
record without changing it. POP_ROM is no part of the state (log 3): every read of it is the same after as before. -/
def Obligations.CommandsChangeOnlyTheRequest : Prop :=
  ∀ (i : Instr) (s t : State), exec i s = .next t →
    t.cur = s.cur ∧ t.cmdIn = s.cmdIn ∧ t.resets = s.resets ∧
    (∃ as, s.inputs = answerInputs as ++ t.inputs) ∧ (∃ es, t.history = s.history ++ es) ∧
    (t.phase = .respond ∧ t.work = Work.empty ∧ t.drawOut = none ∧ t.rspBuf.isSome = true ∨
      t.phase = .busy ∧ t.drawOut.isSome = true ∧ t.rspBuf = s.rspBuf ∧ ∃ w k, genOperands i = some (w, k))

/-- R10: what a command does is a function of the command and of the answers: two states with the same inputs come to the same
phase, WORK, draw request and response state, and add the same events. -/
def Obligations.CommandsDependOnTheirAnswersAlone : Prop :=
  ∀ (i : Instr) (s s' t : State), s.inputs = s'.inputs → exec i s = .next t →
    ∃ t' es, exec i s' = .next t' ∧ t'.phase = t.phase ∧ t'.work = t.work ∧ t'.drawOut = t.drawOut ∧ t'.inputs = t.inputs ∧
      (t.phase = .respond → t'.rspBuf = t.rspBuf) ∧ t.history = s.history ++ es ∧ t'.history = s'.history ++ es

/-- R59, R62, R72: no command stops the machine, whatever its operands and whatever the state: it answers a next state, which
has responded, or waits for the random source. -/
def Obligations.EveryCommandAnswersANextState : Prop :=
  ∀ (i : Instr) (s : State), ∃ t, exec i s = .next t ∧ (t.phase = .respond ∨ (t.phase = .busy ∧ t.drawOut.isSome = true))

/-- R62, R69: GEN with k > W raises POPCOUNT_RANGE, issues no draw and consumes no answer; it does not clamp. -/
def Obligations.GenRaisesPopcountRange : Prop :=
  ∀ (i : Instr) (w : Width) (k : Nat) (s : State), genOperands i = some (w, k) → w.bits < k →
    exec i s = .next
      { s with
        phase := .respond
        work := Work.empty
        drawOut := none
        rspBuf := some (.error .popcountRange)
        history := s.history ++ [.responded (.error .popcountRange)] }

/-! ## Errors -/

/-- R72: STATUS reports the first check of the spec's list that applies, before any draw; a word that passes them all is a
command, and runs. -/
def Obligations.FirstFailedCheckIsReported : Prop :=
  (∀ (p : Params) (w : Word) (e : Reason), decode p w = .invalid e → staticCheck p w = some e) ∧
  ∀ (s : State), s.phase = .busy → s.drawOut = none → s.undisturbed = true →
    match staticCheck hardware s.cur with
    | some e => step s = .next (raiseInvalidRequest e s)
    | none => ∃ i, decode hardware s.cur = .instr i ∧ step s = exec i s ∧
        ∀ t e, exec i s = .next t → t.phase = .respond → t.rspBuf = some (.error e) → e = .drawRange

/-- R73: an abort empties WORK, withdraws the draw request, leaves (reason, 0) as the response and moves to RESPOND; it saves
nothing and takes no input. -/
def Obligations.InvalidRequestAbortsTheRequest : Prop :=
  ∀ (e : Reason) (s : State),
    (raiseInvalidRequest e s).phase = .respond ∧ (raiseInvalidRequest e s).work = Work.empty ∧
    (raiseInvalidRequest e s).drawOut = none ∧ (raiseInvalidRequest e s).cur = s.cur ∧
    (raiseInvalidRequest e s).inputs = s.inputs ∧ (raiseInvalidRequest e s).cmdIn = s.cmdIn ∧
    ∃ r, (raiseInvalidRequest e s).rspBuf = some r ∧ r.status = statusCode e ∧ r.result = 0

/-- R73, R71: an answer outside the range of the outstanding request aborts the request with DRAW_RANGE at once: it is the last
answer taken, and no further draw is requested. -/
def Obligations.AnswerOutOfRangeAborts : Prop :=
  ∀ (s : State) (d : DrawReq) (v : Byte) (rest : List Input), s.phase = .busy → s.drawOut = some d →
    s.inputs = .answer v :: rest → v.toNat < d.lo.toNat ∨ d.hi.toNat < v.toNat →
    step s = .next
      { s with
        phase := .respond
        work := Work.empty
        drawOut := none
        rspBuf := some (.error .drawRange)
        inputs := rest
        history := s.history ++ [.drawAnswered v, .responded (.error .drawRange)] }

/-- R40, R70: STATUS is 0 exactly when the response has a value, RESULT then is that value and else 0, and the codes of the six
reasons are 1 to 6. -/
def Obligations.StatusTellsWhetherThereIsAValue : Prop :=
  (∀ r : Response, (r.status = 0 ↔ r.value?.isSome = true) ∧ (r.value? = some r.result ∨ (r.value? = none ∧ r.result = 0)) ∧
    r.status.toNat ≤ 6) ∧
  [Reason.invalidOp, .reservedNonzero, .unsupportedWidth, .popcountRange, .indexRange, .drawRange].map
    (fun e => (statusCode e).toNat) = [1, 2, 3, 4, 5, 6]

/-! ## The step -/

/-- R12, R71: in BUSY with no draw outstanding, the step is the command that CUR decodes to, run in that very state; with a tick
before it, in the state less the tick. -/
def Obligations.StepRunsTheDecodedCommand : Prop :=
  ∀ (s : State) (i : Instr), s.phase = .busy → s.drawOut = none → decode hardware s.cur = .instr i →
    (s.undisturbed = true → step s = exec i s) ∧
    (∀ rest, s.inputs = .tick :: rest → step s = exec i { s with inputs := rest })

/-- R12: in IDLE an offered command is accepted: it is latched into CUR and PHASE becomes BUSY. -/
def Obligations.IdleAcceptsTheOfferedCommand : Prop :=
  ∀ (s : State) (w : Word) (ws : List Word), s.phase = .idle → s.cmdIn = w :: ws → s.undisturbed = true →
    step s = .next { s with phase := .busy, cur := w, cmdIn := ws, history := s.history ++ [.accepted w] }

/-- R82: a command that is offered where the block has no move of its own, in any phase, becomes the last of those held and changes
nothing else. Outside IDLE every other step leaves what is held as it was, and no step accepts a command or, unless it is a reset,
changes CUR. That a reset too leaves the held commands as they were is the model's choice (log 5), not R82's word; that an offer
waits until the block has no move of its own is the model's choice too (log 21). -/
def Obligations.OfferedCommandsAreHeldWhileNotIdle : Prop :=
  (∀ (s : State) (w : Word) (rest : List Input), canMove s = false → s.inputs = .command w :: rest →
    step s = .next { s with inputs := rest, cmdIn := s.cmdIn ++ [w] }) ∧
  (∀ s t : State, s.phase ≠ .idle → step s = .next t →
    (canMove s = true ∨ (∀ w rest, s.inputs ≠ .command w :: rest) → t.cmdIn = s.cmdIn) ∧
    (nextInput s ≠ .reset → t.cur = s.cur) ∧
    ∃ es, t.history = s.history ++ es ∧ ∀ w, Event.accepted w ∉ es)

/-- R12, R74: when the requester takes the response, RSP_BUF becomes none and PHASE IDLE; nothing of an error stays behind. In
RESPOND, until the response is taken or the block is reset, the response stays offered. -/
def Obligations.TakingTheResponseReturnsToIdle : Prop :=
  (∀ (s : State) (r : Response) (rest : List Input), s.phase = .respond → s.rspBuf = some r → s.inputs = .take :: rest →
    step s = .next { s with phase := .idle, rspBuf := none, inputs := rest, history := s.history ++ [.taken r] }) ∧
  (∀ (s t : State) (r : Response), s.phase = .respond → s.rspBuf = some r → s.drawOut = none → step s = .next t →
    (∃ rest, s.inputs = .take :: rest) ∨ nextInput s = .reset ∨
      (t.phase = .respond ∧ t.rspBuf = some r ∧ t.drawOut = none ∧ t.cur = s.cur))

/-- R80: a reset, in whatever state it comes, leaves PHASE IDLE, WORK empty and no draw request and no response: what ran is
abandoned with no response, and the draw request is withdrawn. What the requester holds stays,
which is the model's choice (log 5), and so does what the outside does next. An answer that comes after the reset has no effect. The value of CUR is left open (log 2). -/
def Obligations.ResetReturnsToIdleFromAnywhere : Prop :=
  (∀ (s : State) (rest : List Input), s.inputs = .reset :: rest →
    ∃ c, step s = .next
      { s with
        phase := .idle
        cur := c
        work := Work.empty
        drawOut := none
        rspBuf := none
        inputs := rest
        history := s.history ++ [.wasReset]
        resets := s.resets + 1 }) ∧
  (∀ (s : State) (v : Byte) (rest : List Input), s.inputs = .reset :: .answer v :: rest → s.cmdIn = [] →
    ∃ t, step s = .next t ∧ step t = .next { t with inputs := rest })

/-- R19: right after reset PHASE is IDLE, WORK is empty, and there is no draw request and no response. -/
def Obligations.StateAfterReset : Prop :=
  State.reset.phase = .idle ∧ State.reset.work = Work.empty ∧ State.reset.drawOut = none ∧ State.reset.rspBuf = none

/-- R83: an answer with no request outstanding is not accepted and has no effect on the block. -/
def Obligations.UnsolicitedAnswersHaveNoEffect : Prop :=
  ∀ (s : State) (v : Byte) (rest : List Input), s.drawOut = none → canMove s = false → s.inputs = .answer v :: rest →
    step s = .next { s with inputs := rest }

/-- R79: with a draw outstanding, a run in which the source does not answer and no reset comes stays in BUSY with that draw
outstanding, for any number of steps. -/
def Obligations.WaitsAsLongAsTheSourceIsSilent : Prop :=
  ∀ (n : Nat) (s : State) (d : DrawReq), s.phase = .busy → s.drawOut = some d →
    (∀ x ∈ s.inputs, endsTheWait x = false) →
    ∃ t, runSteps n s = .next t ∧ t.phase = .busy ∧ t.drawOut = some d ∧ t.work = s.work ∧ t.rspBuf = s.rspBuf ∧
      t.cur = s.cur ∧ t.history = s.history

/-- R17, R58: a command that waits goes on as if it had never waited: the later answers, given at the wait, lead to the state that
all the answers given at once lead to. -/
def Obligations.WaitingDoesNotChangeTheOutcome : Prop :=
  ∀ (i : Instr) (s t : State) (as bs : List Byte) (b : Byte) (rest : List Input), s.inputs = answerInputs as →
    exec i s = .next t → t.phase = .busy →
    step { t with inputs := answerInputs (b :: bs) ++ rest } =
      exec i { s with inputs := answerInputs (as ++ b :: bs) ++ rest }

/-- R86: a command in CUR that has not been run yet, valid or not, ends with exactly one response in this step when the random
source answers every draw: the answers are at hand for W/4 − 1 = 31 draws at most. -/
def Obligations.EveryCommandEndsInOneResponse : Prop :=
  ∀ (s : State) (as : List Byte) (rest : List Input), s.phase = .busy → s.drawOut = none →
    s.inputs = answerInputs as ++ rest → 31 ≤ as.length →
    ∃ t r, step s = .next t ∧ t.phase = .respond ∧ t.rspBuf = some r ∧ allowedResponse s.cur r = true ∧
      responseCount t.history = responseCount s.history + 1

/-! ## Invariants -/

/-- R12, R17, R33, R41, R59, R72: from every well-placed state, a step is a next state, never a fault or a refusal, and that
state is well placed: each phase has what R12 says, a draw is outstanding only at its place in the composition of the command in
CUR, and a response held is one the rules allow for that command. -/
def Obligations.EveryStepKeepsTheBlockWellPlaced : Prop :=
  ∀ s : State, s.wellPlaced = true → ∃ t, step s = .next t ∧ t.wellPlaced = true

/-- R19: the state after reset is well placed, and its record fits. -/
def Obligations.ResetIsWellPlaced : Prop :=
  State.reset.wellPlaced = true ∧ State.reset.historyFits = true

/-- R33: every step from a well-placed state keeps the order of events on the channels: one command at a time, one draw
outstanding at a time, the next request or the response only after the answer, one response a command. That well-placed states stay
well placed is a statement of its own. -/
def Obligations.EveryStepKeepsTheChannelOrder : Prop :=
  ∀ s t : State, s.wellPlaced = true → s.historyFits = true → step s = .next t →
    t.historyFits = true ∧ ∃ es, t.history = s.history ++ es

/-- R17, R61: in a well-placed state WORK holds at most four composer frames. -/
def Obligations.NestingIsAtMostFour : Prop :=
  ∀ s : State, s.wellPlaced = true → s.work.frames.length ≤ 4
end

