-- ==== Sys2Proof/Laws/Decode.lean ====
section
/-! SUPPORT. The fields of an assembled word, and everything the decoder can answer. -/

namespace Sys2Proof

theorem fields_of_assembleFields (op : BitVec 2) (idx : BitVec 7) (ws : BitVec 3) (k : BitVec 8) :
    fieldOp (assembleFields op idx ws k) = op ∧ fieldRsvA (assembleFields op idx ws k) = 0 ∧
      fieldIdx (assembleFields op idx ws k) = idx ∧ fieldRsvB (assembleFields op idx ws k) = 0 ∧
      fieldWsel (assembleFields op idx ws k) = ws ∧ fieldK (assembleFields op idx ws k) = k := by
  unfold fieldOp fieldRsvA fieldIdx fieldRsvB fieldWsel fieldK assembleFields
  refine ⟨?_, ?_, ?_, ?_, ?_, ?_⟩ <;>
  · apply BitVec.eq_of_getLsbD_eq
    intro i hi
    simp only [BitVec.getLsbD_extractLsb', hi, decide_true, Bool.true_and, BitVec.getLsbD_append]
    interval_cases i <;> simp

/-- A word with zero reserved fields is put together from its fields. -/
theorem assembleFields_of_fields (w : Word) (ha : fieldRsvA w = 0) (hb : fieldRsvB w = 0) :
    assembleFields (fieldOp w) (fieldIdx w) (fieldWsel w) (fieldK w) = w := by
  unfold assembleFields
  rw [show (0#7) = fieldRsvA w from ha.symm, show (0#5) = fieldRsvB w from hb.symm]
  unfold fieldOp fieldRsvA fieldIdx fieldRsvB fieldWsel fieldK
  apply BitVec.eq_of_getLsbD_eq
  intro i hi
  simp only [BitVec.getLsbD_append, BitVec.getLsbD_extractLsb']
  interval_cases i <;> simp

theorem op_cases (x : BitVec 2) : x = 0b00#2 ∨ x = 0b01#2 ∨ x = 0b10#2 ∨ x = 0b11#2 := by
  revert x
  decide

theorem wsel_cases (x : BitVec 3) :
    x = 0#3 ∨ x = 1#3 ∨ x = 2#3 ∨ x = 3#3 ∨ x = 4#3 ∨ x = 5#3 ∨ x = 6#3 ∨ x = 7#3 := by
  revert x
  decide

/-- Everything the decoder can answer, with what the word's fields then are. -/
theorem decode_cases (p : Params) (w : Word) :
    (fieldOp w = 0b11#2 ∧ decode p w = .invalid .invalidOp) ∨
    (fieldOp w ≠ 0b11#2 ∧
      (fieldRsvA w ≠ 0 ∨ fieldRsvB w ≠ 0 ∨ (fieldIdx w ≠ 0 ∧ fieldOp w ≠ 0b01#2) ∨
        (fieldWsel w ≠ 0 ∧ fieldOp w ≠ 0b00#2)) ∧
      decode p w = .invalid .reservedNonzero) ∨
    (fieldRsvA w = 0 ∧ fieldRsvB w = 0 ∧
      ((fieldOp w = 0b00#2 ∧ fieldIdx w = 0 ∧ decode p w = decodeGen p (fieldWsel w) (fieldK w).toNat) ∨
        (fieldOp w = 0b01#2 ∧ fieldWsel w = 0 ∧
          decode p w = .instr (.romrd (fieldK w).toNat (fieldIdx w).toNat)) ∨
        (fieldOp w = 0b10#2 ∧ fieldWsel w = 0 ∧ fieldIdx w = 0 ∧
          decode p w = .instr (.romsz (fieldK w).toNat)))) := by
  unfold decode
  generalize fieldWsel w = ws
  generalize fieldK w = k
  generalize fieldIdx w = idx
  generalize fieldRsvA w = ra
  generalize fieldRsvB w = rb
  by_cases hra : ra = 0#7 <;> by_cases hrb : rb = 0#5 <;> by_cases hi : idx = 0#7 <;> by_cases hw : ws = 0#3 <;>
    rcases op_cases (fieldOp w) with h | h | h | h <;> simp [h, hra, hrb, hi, hw]

/-- Everything that WSEL can select. -/
theorem decodeGen_cases (p : Params) (ws : BitVec 3) (k : Nat) :
    (∃ i gw, decodeGen p ws k = .instr i ∧ Machine.genOperands i = some (gw, k) ∧ gw.bits = 8 <<< ws.toNat ∧
      (ws.toNat < 4 ∨ (ws.toNat = 4 ∧ p.maxWidth = .w128))) ∨
    ((4 < ws.toNat ∨ (ws.toNat = 4 ∧ p.maxWidth = .w64)) ∧ decodeGen p ws k = .invalid .unsupportedWidth) := by
  unfold decodeGen
  rcases p with ⟨m, b⟩
  rcases wsel_cases ws with rfl | rfl | rfl | rfl | rfl | rfl | rfl | rfl <;> cases m <;>
    first
      | exact .inl ⟨_, _, rfl, rfl, rfl, by simp⟩
      | exact .inr ⟨by simp, rfl⟩

/-- What an instruction of the opcode table is: 32 bits long, and a word that decodes (R44). -/
theorem decodeTableWord_eq_some_iff (nbits w : Nat) (i : Instr) :
    decodeTableWord nbits w = some i ↔ nbits = 32 ∧ w < 2 ^ 32 ∧ decode hardware (BitVec.ofNat 32 w) = .instr i := by
  by_cases h : nbits = 32 ∧ w < 2 ^ 32
  · rw [decodeTableWord, if_pos h, ← and_assoc, and_iff_right h]
    rcases decode hardware (BitVec.ofNat 32 w) with j | e <;> simp
  · rw [decodeTableWord, if_neg h, ← and_assoc]
    exact ⟨nofun, fun h' => absurd h'.1 h⟩

end Sys2Proof
end

