-- ==== Sys2Proof/Laws/State.lean ====
section
/-! SUPPORT. What each update of the state leaves in each field, one lemma a field. -/

namespace Sys2Proof.Machine

@[simp] theorem respond_phase (r : Response) (s : State) : (respond r s).phase = .respond := rfl
@[simp] theorem respond_cur (r : Response) (s : State) : (respond r s).cur = s.cur := rfl
@[simp] theorem respond_work (r : Response) (s : State) : (respond r s).work = Work.empty := rfl
@[simp] theorem respond_drawOut (r : Response) (s : State) : (respond r s).drawOut = none := rfl
@[simp] theorem respond_rspBuf (r : Response) (s : State) : (respond r s).rspBuf = some r := rfl
@[simp] theorem respond_inputs (r : Response) (s : State) : (respond r s).inputs = s.inputs := rfl
@[simp] theorem respond_cmdIn (r : Response) (s : State) : (respond r s).cmdIn = s.cmdIn := rfl
@[simp] theorem respond_history (r : Response) (s : State) : (respond r s).history = s.history ++ [.responded r] := rfl
@[simp] theorem respond_resets (r : Response) (s : State) : (respond r s).resets = s.resets := rfl

@[simp] theorem respondValue_phase (v : Nat) (s : State) : (respondValue v s).phase = .respond := rfl
@[simp] theorem respondValue_cur (v : Nat) (s : State) : (respondValue v s).cur = s.cur := rfl
@[simp] theorem respondValue_work (v : Nat) (s : State) : (respondValue v s).work = Work.empty := rfl
@[simp] theorem respondValue_drawOut (v : Nat) (s : State) : (respondValue v s).drawOut = none := rfl
@[simp] theorem respondValue_rspBuf (v : Nat) (s : State) : (respondValue v s).rspBuf = some (.ok (BitVec.ofNat 128 v)) := rfl
@[simp] theorem respondValue_inputs (v : Nat) (s : State) : (respondValue v s).inputs = s.inputs := rfl
@[simp] theorem respondValue_cmdIn (v : Nat) (s : State) : (respondValue v s).cmdIn = s.cmdIn := rfl
@[simp] theorem respondValue_history (v : Nat) (s : State) : (respondValue v s).history = s.history ++ [.responded (.ok (BitVec.ofNat 128 v))] := rfl
@[simp] theorem respondValue_resets (v : Nat) (s : State) : (respondValue v s).resets = s.resets := rfl

@[simp] theorem raiseInvalidRequest_phase (r : Reason) (s : State) : (raiseInvalidRequest r s).phase = .respond := rfl
@[simp] theorem raiseInvalidRequest_cur (r : Reason) (s : State) : (raiseInvalidRequest r s).cur = s.cur := rfl
@[simp] theorem raiseInvalidRequest_work (r : Reason) (s : State) : (raiseInvalidRequest r s).work = Work.empty := rfl
@[simp] theorem raiseInvalidRequest_drawOut (r : Reason) (s : State) : (raiseInvalidRequest r s).drawOut = none := rfl
@[simp] theorem raiseInvalidRequest_rspBuf (r : Reason) (s : State) : (raiseInvalidRequest r s).rspBuf = some (.error r) := rfl
@[simp] theorem raiseInvalidRequest_inputs (r : Reason) (s : State) : (raiseInvalidRequest r s).inputs = s.inputs := rfl
@[simp] theorem raiseInvalidRequest_cmdIn (r : Reason) (s : State) : (raiseInvalidRequest r s).cmdIn = s.cmdIn := rfl
@[simp] theorem raiseInvalidRequest_history (r : Reason) (s : State) : (raiseInvalidRequest r s).history = s.history ++ [.responded (.error r)] := rfl
@[simp] theorem raiseInvalidRequest_resets (r : Reason) (s : State) : (raiseInvalidRequest r s).resets = s.resets := rfl

@[simp] theorem issueDraw_phase (w : Work) (d : DrawReq) (s : State) : (issueDraw w d s).phase = .busy := rfl
@[simp] theorem issueDraw_cur (w : Work) (d : DrawReq) (s : State) : (issueDraw w d s).cur = s.cur := rfl
@[simp] theorem issueDraw_work (w : Work) (d : DrawReq) (s : State) : (issueDraw w d s).work = w := rfl
@[simp] theorem issueDraw_drawOut (w : Work) (d : DrawReq) (s : State) : (issueDraw w d s).drawOut = some d := rfl
@[simp] theorem issueDraw_rspBuf (w : Work) (d : DrawReq) (s : State) : (issueDraw w d s).rspBuf = s.rspBuf := rfl
@[simp] theorem issueDraw_inputs (w : Work) (d : DrawReq) (s : State) : (issueDraw w d s).inputs = s.inputs := rfl
@[simp] theorem issueDraw_cmdIn (w : Work) (d : DrawReq) (s : State) : (issueDraw w d s).cmdIn = s.cmdIn := rfl
@[simp] theorem issueDraw_history (w : Work) (d : DrawReq) (s : State) : (issueDraw w d s).history = s.history ++ [.drawRequested d] := rfl
@[simp] theorem issueDraw_resets (w : Work) (d : DrawReq) (s : State) : (issueDraw w d s).resets = s.resets := rfl

@[simp] theorem acceptAnswer_phase (v : Byte) (l : List Input) (s : State) : (acceptAnswer v l s).phase = s.phase := rfl
@[simp] theorem acceptAnswer_cur (v : Byte) (l : List Input) (s : State) : (acceptAnswer v l s).cur = s.cur := rfl
@[simp] theorem acceptAnswer_work (v : Byte) (l : List Input) (s : State) : (acceptAnswer v l s).work = s.work := rfl
@[simp] theorem acceptAnswer_drawOut (v : Byte) (l : List Input) (s : State) : (acceptAnswer v l s).drawOut = none := rfl
@[simp] theorem acceptAnswer_rspBuf (v : Byte) (l : List Input) (s : State) : (acceptAnswer v l s).rspBuf = s.rspBuf := rfl
@[simp] theorem acceptAnswer_inputs (v : Byte) (l : List Input) (s : State) : (acceptAnswer v l s).inputs = l := rfl
@[simp] theorem acceptAnswer_cmdIn (v : Byte) (l : List Input) (s : State) : (acceptAnswer v l s).cmdIn = s.cmdIn := rfl
@[simp] theorem acceptAnswer_history (v : Byte) (l : List Input) (s : State) : (acceptAnswer v l s).history = s.history ++ [.drawAnswered v] := rfl
@[simp] theorem acceptAnswer_resets (v : Byte) (l : List Input) (s : State) : (acceptAnswer v l s).resets = s.resets := rfl

@[simp] theorem acceptCommand_phase (w : Word) (ws : List Word) (s : State) : (acceptCommand w ws s).phase = .busy := rfl
@[simp] theorem acceptCommand_cur (w : Word) (ws : List Word) (s : State) : (acceptCommand w ws s).cur = w := rfl
@[simp] theorem acceptCommand_work (w : Word) (ws : List Word) (s : State) : (acceptCommand w ws s).work = s.work := rfl
@[simp] theorem acceptCommand_drawOut (w : Word) (ws : List Word) (s : State) : (acceptCommand w ws s).drawOut = s.drawOut := rfl
@[simp] theorem acceptCommand_rspBuf (w : Word) (ws : List Word) (s : State) : (acceptCommand w ws s).rspBuf = s.rspBuf := rfl
@[simp] theorem acceptCommand_inputs (w : Word) (ws : List Word) (s : State) : (acceptCommand w ws s).inputs = s.inputs := rfl
@[simp] theorem acceptCommand_cmdIn (w : Word) (ws : List Word) (s : State) : (acceptCommand w ws s).cmdIn = ws := rfl
@[simp] theorem acceptCommand_history (w : Word) (ws : List Word) (s : State) : (acceptCommand w ws s).history = s.history ++ [.accepted w] := rfl
@[simp] theorem acceptCommand_resets (w : Word) (ws : List Word) (s : State) : (acceptCommand w ws s).resets = s.resets := rfl

@[simp] theorem offerCommand_phase (w : Word) (s : State) : (offerCommand w s).phase = s.phase := rfl
@[simp] theorem offerCommand_cur (w : Word) (s : State) : (offerCommand w s).cur = s.cur := rfl
@[simp] theorem offerCommand_work (w : Word) (s : State) : (offerCommand w s).work = s.work := rfl
@[simp] theorem offerCommand_drawOut (w : Word) (s : State) : (offerCommand w s).drawOut = s.drawOut := rfl
@[simp] theorem offerCommand_rspBuf (w : Word) (s : State) : (offerCommand w s).rspBuf = s.rspBuf := rfl
@[simp] theorem offerCommand_inputs (w : Word) (s : State) : (offerCommand w s).inputs = s.inputs := rfl
@[simp] theorem offerCommand_cmdIn (w : Word) (s : State) : (offerCommand w s).cmdIn = s.cmdIn ++ [w] := rfl
@[simp] theorem offerCommand_history (w : Word) (s : State) : (offerCommand w s).history = s.history := rfl
@[simp] theorem offerCommand_resets (w : Word) (s : State) : (offerCommand w s).resets = s.resets := rfl

@[simp] theorem applyReset_phase (s : State) : (applyReset s).phase = .idle := rfl
@[simp] theorem applyReset_cur (s : State) : (applyReset s).cur = Config.curAfterReset s.resets := rfl
@[simp] theorem applyReset_work (s : State) : (applyReset s).work = Work.empty := rfl
@[simp] theorem applyReset_drawOut (s : State) : (applyReset s).drawOut = none := rfl
@[simp] theorem applyReset_rspBuf (s : State) : (applyReset s).rspBuf = none := rfl
@[simp] theorem applyReset_inputs (s : State) : (applyReset s).inputs = s.inputs := rfl
@[simp] theorem applyReset_cmdIn (s : State) : (applyReset s).cmdIn = s.cmdIn := rfl
@[simp] theorem applyReset_history (s : State) : (applyReset s).history = s.history ++ [.wasReset] := rfl
@[simp] theorem applyReset_resets (s : State) : (applyReset s).resets = s.resets + 1 := rfl

end Sys2Proof.Machine
end

