-- ==== Sys2Proof/Laws/Ops.lean ====
section
/-! SUPPORT. For each shared operation, once, everything it can do. -/

namespace Sys2Proof.Machine

/-! ## The byte table -/

theorem sizeRom_of_le {k : Nat} (h : k ≤ 8) : sizeRom k = some (BitVec.ofNat 7 (Nat.choose 8 k)) := by
  interval_cases k <;> rfl

theorem sizeRom_of_gt {k : Nat} (h : 8 < k) : sizeRom k = none :=
  List.getElem?_eq_none (by simp [sizeRomTable]; omega)

theorem offsetRom_of_gt {k : Nat} (h : 8 < k) : offsetRom k = none :=
  List.getElem?_eq_none (by simp [offsetRomTable]; omega)

theorem choose_eight_le {k : Nat} (h : k ≤ 8) : 1 ≤ Nat.choose 8 k ∧ Nat.choose 8 k ≤ 70 := by
  interval_cases k <;> decide

theorem sizeRom_cases (k : Nat) :
    (k ≤ 8 ∧ ∃ size, sizeRom k = some size ∧ size.toNat = Nat.choose 8 k) ∨ (8 < k ∧ sizeRom k = none) := by
  rcases Nat.lt_or_ge 8 k with h | h
  · exact .inr ⟨h, sizeRom_of_gt h⟩
  · refine .inl ⟨h, _, sizeRom_of_le h, ?_⟩
    have := choose_eight_le h
    simp only [BitVec.toNat_ofNat]
    omega

/-- Every index below C(8,k) has an entry, and its popcount is k (R24). -/
theorem romEntry_of_lt {k i : Nat} (hk : k ≤ 8) (hi : i < Nat.choose 8 k) :
    ∃ b, romEntry k i = .ok b ∧ popcount 8 b.toNat = k := by
  have all : ∀ k < 9, ∀ i < Nat.choose 8 k, (match romEntry k i with
      | .ok b => popcount 8 b.toNat == k
      | .error _ => false) = true := by decide +kernel
  have := all k (by omega) i hi
  split at this
  · exact ⟨_, by assumption, by simpa using this⟩
  · exact absurd this (by simp)

/-! ## Draw requests -/

theorem inRange_iff (d : DrawReq) (v : Byte) : d.inRange v = true ↔ d.lo.toNat ≤ v.toNat ∧ v.toNat ≤ d.hi.toNat := by
  simp [DrawReq.inRange]

theorem half_bits (c : ComposerWidth) : c.bits = 2 * c.half.bits := by cases c <;> rfl

theorem half_bits_le (c : ComposerWidth) : 8 ≤ c.half.bits ∧ c.half.bits ≤ 64 := by cases c <;> decide

theorem splitRequest_inRange_iff {c : ComposerWidth} {k : Nat} (hk : k ≤ c.bits) (v : Byte) :
    (splitRequest c k).inRange v = true ↔ splitLo c k ≤ v.toNat ∧ v.toNat ≤ splitHi c k := by
  have h1 := half_bits c
  have h2 := half_bits_le c
  rw [inRange_iff]
  simp only [splitRequest, BitVec.toNat_ofNat, splitLo, splitHi]
  omega

theorem indexRequest_inRange_iff {k : Nat} (hk : k ≤ 8) (v : Byte) :
    (indexRequest (Nat.choose 8 k)).inRange v = true ↔ v.toNat < Nat.choose 8 k := by
  have := choose_eight_le hk
  rw [inRange_iff]
  simp only [indexRequest, BitVec.toNat_ofNat]
  omega

/-! ## Operand checks -/

theorem popcountAbove_of_lt {limit k : Nat} (h : limit < k) : popcountAbove limit k = true := decide_eq_true h

theorem popcountAbove_of_le {limit k : Nat} (h : k ≤ limit) : popcountAbove limit k = false :=
  decide_eq_false (Nat.not_lt.mpr h)

/-! ## The pump: one equation for each way it can go -/

theorem pump_nil (p : Params) (s : State) : pump p [] s = .next s := rfl

theorem pump_other (p : Params) {x : Input} (hx : ∀ v, x ≠ .answer v) (l : List Input) (s : State) :
    pump p (x :: l) s = .next s := by
  cases x <;> first | rfl | exact absurd rfl (hx _)

theorem pump_outOfRange (p : Params) {s : State} {d : DrawReq} {v : Byte} {l : List Input} (hd : s.drawOut = some d)
    (hv : d.inRange v = false) : pump p (.answer v :: l) s = .next (raiseInvalidRequest .drawRange (acceptAnswer v l s)) := by
  simp [pump, hd, hv]

theorem pump_value (p : Params) {s : State} {d : DrawReq} {v : Byte} {l : List Input} {x : Nat} (hd : s.drawOut = some d)
    (hv : d.inRange v = true) (hc : continueWith p s.work v.toNat = .value x) :
    pump p (.answer v :: l) s = .next (respondValue x (acceptAnswer v l s)) := by
  simp [pump, hd, hv, hc]

theorem pump_draw (p : Params) {s : State} {d d' : DrawReq} {v : Byte} {l : List Input} {w : Work} (hd : s.drawOut = some d)
    (hv : d.inRange v = true) (hc : continueWith p s.work v.toNat = .draw w d') :
    pump p (.answer v :: l) s = pump p l (issueDraw w d' (acceptAnswer v l s)) := by
  simp [pump, hd, hv, hc]

theorem pump_stop (p : Params) {s : State} {d : DrawReq} {v : Byte} {l : List Input} {f : Fault} (hd : s.drawOut = some d)
    (hv : d.inRange v = true) (hc : continueWith p s.work v.toNat = .stop f) : pump p (.answer v :: l) s = .fault f := by
  simp [pump, hd, hv, hc]

/-- How the pump ends, from a state with a draw outstanding: it waits where it began, or the first answer is out of range, or
in range and the work ends, goes on to another draw, or breaks a contract. -/
theorem pump_cases (p : Params) (l : List Input) {s : State} {d : DrawReq} (hd : s.drawOut = some d) :
    ((∀ v r, l ≠ .answer v :: r) ∧ pump p l s = .next s) ∨
    ∃ v r, l = .answer v :: r ∧
      ((d.inRange v = false ∧ pump p l s = .next (raiseInvalidRequest .drawRange (acceptAnswer v r s))) ∨
        (d.inRange v = true ∧
          ((∃ x, continueWith p s.work v.toNat = .value x ∧ pump p l s = .next (respondValue x (acceptAnswer v r s))) ∨
            (∃ w d', continueWith p s.work v.toNat = .draw w d' ∧
              pump p l s = pump p r (issueDraw w d' (acceptAnswer v r s))) ∨
            (∃ f, continueWith p s.work v.toNat = .stop f ∧ pump p l s = .fault f)))) := by
  rcases l with _ | ⟨x, r⟩
  · exact .inl ⟨by simp, rfl⟩
  · cases x with
    | answer v =>
      refine .inr ⟨v, r, rfl, ?_⟩
      rcases hv : d.inRange v with _ | _
      · exact .inl ⟨rfl, pump_outOfRange p hd hv⟩
      · refine .inr ⟨rfl, ?_⟩
        rcases hc : continueWith p s.work v.toNat with x | ⟨w, d'⟩ | f
        · exact .inl ⟨x, rfl, pump_value p hd hv hc⟩
        · exact .inr (.inl ⟨w, d', rfl, pump_draw p hd hv hc⟩)
        · exact .inr (.inr ⟨f, rfl, pump_stop p hd hv hc⟩)
    | command w => exact .inl ⟨by simp, rfl⟩
    | take => exact .inl ⟨by simp, rfl⟩
    | reset => exact .inl ⟨by simp, rfl⟩
    | tick => exact .inl ⟨by simp, rfl⟩

/-! ## Starting a sample -/

theorem startSample_cases (p : Params) (w : Width) (k : Nat) (s : State) :
    (∃ v, enter p w k [] = .value v ∧ startSample p w k s = .next (respondValue v s)) ∨
    (∃ wk d, enter p w k [] = .draw wk d ∧ startSample p w k s = pump p s.inputs (issueDraw wk d s)) ∨
    (∃ f, enter p w k [] = .stop f ∧ startSample p w k s = .fault f) := by
  unfold startSample
  rcases enter p w k [] with v | ⟨wk, d⟩ | f
  · exact .inl ⟨v, rfl, rfl⟩
  · exact .inr (.inl ⟨wk, d, rfl, rfl⟩)
  · exact .inr (.inr ⟨f, rfl, rfl⟩)

theorem generate_cases (p : Params) (w : Width) (k : Nat) (s : State) :
    (w.bits < k ∧ generate p w k s = .next (raiseInvalidRequest .popcountRange s)) ∨
    (k ≤ w.bits ∧ generate p w k s = startSample p w k s) := by
  rcases Nat.lt_or_ge w.bits k with h | h
  · exact .inl ⟨h, by simp [generate, popcountAbove_of_lt h]⟩
  · exact .inr ⟨h, by simp [generate, popcountAbove_of_le h]⟩

/-- What a command's meaning is: one of the five GEN forms over `generate`, ROMRD or ROMSZ. -/
theorem exec_cases (i : Instr) :
    (∃ w k, genOperands i = some (w, k) ∧ ∀ s, exec i s = generate hardware w k s) ∨
    (∃ k j, i = .romrd k j) ∨ (∃ k, i = .romsz k) := by
  cases i <;> first | exact .inl ⟨_, _, rfl, fun _ => rfl⟩ | exact .inr (.inl ⟨_, _, rfl⟩) | exact .inr (.inr ⟨_, rfl⟩)

theorem exec_of_genOperands {i : Instr} {w : Width} {k : Nat} (h : genOperands i = some (w, k)) (s : State) :
    exec i s = generate hardware w k s := by
  cases i <;> simp only [genOperands, Option.some.injEq, Prod.mk.injEq, reduceCtorEq] at h <;>
    obtain ⟨rfl, rfl⟩ := h <;> rfl

/-! ## The ROM commands -/

theorem execRomrd_cases (k j : Nat) (s : State) :
    (8 < k ∧ execRomrd k j s = .next (raiseInvalidRequest .popcountRange s)) ∨
    (k ≤ 8 ∧ Nat.choose 8 k ≤ j ∧ execRomrd k j s = .next (raiseInvalidRequest .indexRange s)) ∨
    (k ≤ 8 ∧ j < Nat.choose 8 k ∧ ∃ b, romEntry k j = .ok b ∧ execRomrd k j s = .next (respondValue b.toNat s)) := by
  rcases sizeRom_cases k with ⟨hk, size, hs, hn⟩ | ⟨hk, -⟩
  · refine .inr ?_
    have hlim : popcountAbove romPopcountLimit k = false := popcountAbove_of_le hk
    rcases Nat.lt_or_ge j (Nat.choose 8 k) with hj | hj
    · obtain ⟨b, hb, -⟩ := romEntry_of_lt hk hj
      refine .inr ⟨hk, hj, b, hb, ?_⟩
      simp [execRomrd, hlim, hs, hn, Nat.not_le.mpr hj, hb]
    · refine .inl ⟨hk, hj, ?_⟩
      simp [execRomrd, hlim, hs, hn, hj]
  · refine .inl ⟨hk, ?_⟩
    have hlim : popcountAbove romPopcountLimit k = true := popcountAbove_of_lt hk
    simp [execRomrd, hlim]

theorem execRomsz_cases (k : Nat) (s : State) :
    (8 < k ∧ execRomsz k s = .next (raiseInvalidRequest .popcountRange s)) ∨
    (k ≤ 8 ∧ execRomsz k s = .next (respondValue (Nat.choose 8 k) s)) := by
  rcases sizeRom_cases k with ⟨hk, size, hs, hn⟩ | ⟨hk, -⟩
  · have hlim : popcountAbove romPopcountLimit k = false := popcountAbove_of_le hk
    exact .inr ⟨hk, by simp [execRomsz, hlim, hs, hn]⟩
  · have hlim : popcountAbove romPopcountLimit k = true := popcountAbove_of_lt hk
    exact .inl ⟨hk, by simp [execRomsz, hlim]⟩

/-! ## The step -/

/-- Everything the step can be: a reset, a move of the block after a tick or of its own, or the next input taken. -/
theorem step_cases (s : State) :
    (∃ r, s.inputs = .reset :: r ∧ step s = .next (applyReset { s with inputs := r })) ∨
    (∃ r, s.inputs = .tick :: r ∧ step s = blockMove { s with inputs := r }) ∨
    (nextInput s = .other ∧ canMove s = true ∧ step s = blockMove s) ∨
    (nextInput s = .other ∧ canMove s = false ∧ step s = takeInput s) := by
  rcases hl : s.inputs with _ | ⟨x, r⟩
  · have hn : nextInput s = .other := by simp [nextInput, hl]
    rcases hm : canMove s with _ | _
    · exact .inr (.inr (.inr ⟨hn, rfl, by simp [step, hn, hm]⟩))
    · exact .inr (.inr (.inl ⟨hn, rfl, by simp [step, hn, hm]⟩))
  · cases x with
    | reset => exact .inl ⟨r, rfl, by simp [step, nextInput, takeInput, hl]⟩
    | tick => exact .inr (.inl ⟨r, rfl, by simp [step, nextInput, dropTick, hl]⟩)
    | command w | answer w | take =>
      have hn : nextInput s = .other := by simp [nextInput, hl]
      rcases hm : canMove s with _ | _
      · exact .inr (.inr (.inr ⟨hn, rfl, by simp [step, hn, hm]⟩))
      · exact .inr (.inr (.inl ⟨hn, rfl, by simp [step, hn, hm]⟩))

/-- Everything a move of the block can be. -/
theorem blockMove_cases (s : State) :
    (∃ w ws, s.phase = .idle ∧ s.cmdIn = w :: ws ∧ blockMove s = .next (acceptCommand w ws s)) ∨
    (s.phase = .busy ∧ s.drawOut = none ∧ blockMove s = runCommand s) ∨
    (canMove s = false ∧ blockMove s = .next s) := by
  rcases hp : s.phase with _ | _ | _
  · rcases hc : s.cmdIn with _ | ⟨w, ws⟩
    · exact .inr (.inr ⟨by simp [canMove, hp, hc], by simp [blockMove, hp, hc]⟩)
    · exact .inl ⟨w, ws, rfl, rfl, by simp [blockMove, hp, hc]⟩
  · rcases hd : s.drawOut with _ | d
    · exact .inr (.inl ⟨rfl, rfl, by simp [blockMove, hp, hd]⟩)
    · exact .inr (.inr ⟨by simp [canMove, hp, hd], by simp [blockMove, hp, hd]⟩)
  · exact .inr (.inr ⟨by simp [canMove, hp], by simp [blockMove, hp]⟩)

/-- Everything that running CUR can be. -/
theorem runCommand_cases (s : State) :
    (∃ e, decode hardware s.cur = .invalid e ∧ runCommand s = .next (raiseInvalidRequest e s)) ∨
    (∃ i, decode hardware s.cur = .instr i ∧ runCommand s = exec i s) := by
  unfold runCommand
  rcases decode hardware s.cur with i | e
  · exact .inr ⟨i, rfl, rfl⟩
  · exact .inl ⟨e, rfl, rfl⟩

/-- Everything that taking a response can be. -/
theorem takeResponse_cases (s : State) :
    (∃ r, s.phase = .respond ∧ s.rspBuf = some r ∧
      takeResponse s = { s with phase := .idle, rspBuf := none, history := s.history ++ [.taken r] }) ∨
    takeResponse s = s := by
  rcases hp : s.phase with _ | _ | _
  · exact .inr (by simp [takeResponse, hp])
  · exact .inr (by simp [takeResponse, hp])
  · rcases hr : s.rspBuf with _ | r
    · exact .inr (by simp [takeResponse, hr])
    · exact .inl ⟨r, rfl, rfl, by simp [takeResponse, hp, hr]⟩

end Sys2Proof.Machine
end

