-- ==== Sys2Proof/Laws/Recursion.lean ====
section
/-! SUPPORT. WORK as the continuation of the recursive definition (R17): each operation on the stack agrees with the tree of
draws that it stands for. -/

namespace Sys2Proof.Machine

@[simp] theorem andThen_ret (v : Nat) (g : Nat → DrawTree) : (DrawTree.ret v).andThen g = g v := rfl

@[simp] theorem andThen_violate (f : Fault) (g : Nat → DrawTree) : (DrawTree.violate f).andThen g = .violate f := rfl

@[simp] theorem andThen_ask (d : DrawReq) (go g : Nat → DrawTree) :
    (DrawTree.ask d go).andThen g = .ask d (fun a => (go a).andThen g) := rfl

theorem andThen_assoc (t : DrawTree) (g h : Nat → DrawTree) :
    (t.andThen g).andThen h = t.andThen (fun v => (g v).andThen h) := by
  induction t with
  | ret v => rfl
  | violate f => rfl
  | ask d go ih => simp [ih]

@[simp] theorem andThen_ret_right (t : DrawTree) : t.andThen .ret = t := by
  induction t with
  | ret v => rfl
  | violate f => rfl
  | ask d go ih => simp [ih]

/-- sample at a composer width is compose over sample at the half (R56). -/
theorem sampleTree_composed (p : Params) (c : ComposerWidth) :
    sampleTree p (.composed c) = composeTree c (sampleTree p c.half) := by
  cases c <;> rfl

/-- What the waiting frames do with a value, as a tree. -/
def plugTree (p : Params) : List Frame → Nat → DrawTree
  | [], v => .ret v
  | f :: fs, v =>
    match f.split, f.high with
    | none, _ => .violate .workCorrupt
    | some _, some hv => plugTree p fs (concatHalves f.width hv v)
    | some h, none =>
      (sampleTree p f.width.half (f.k - h)).andThen fun lv => plugTree p fs (concatHalves f.width v lv)

/-- What a position does with the answer it waits for, as a tree. -/
def resumeTree (p : Params) (w : Work) (a : Nat) : DrawTree :=
  match w.sampler, w.frames with
  | some k, fs => (entryTree k a).andThen (plugTree p fs)
  | none, [] => .violate .workCorrupt
  | none, f :: fs =>
    match f.split with
    | some _ => .violate .workCorrupt
    | none => (sampleTree p f.width.half a).andThen (plugTree p ({ f with split := some a } :: fs))

/-- The tree of a piece of work that has come as far as the given progress, where a value goes to the frames `fs`. -/
def Progress.tree (p : Params) (fs : List Frame) : Progress → DrawTree
  | .value v => plugTree p fs v
  | .draw w d => .ask d (resumeTree p w)
  | .stop f => .violate f

/-- `enter` is sample(W, k) up to its first draw. -/
theorem enter_tree (p : Params) (w : Width) (k : Nat) (fs : List Frame) :
    (enter p w k fs).tree p fs = (sampleTree p w k).andThen (plugTree p fs) := by
  cases w with
  | w8 =>
    simp only [enter, enterByte, sampleTree, sampleByteTree]
    rcases sizeRom k with _ | size
    · rfl
    · dsimp only
      split
      · unfold entryTree
        rcases romEntry k 0 with f | b <;> rfl
      · rfl
  | composed c =>
    rw [sampleTree_composed]
    unfold enter composeTree
    dsimp only
    split
    · rfl
    · split
      · rfl
      · simp only [Progress.tree, andThen_ask, andThen_assoc, andThen_ret]
        rfl

/-- `feed` gives a value to the frames. -/
theorem feed_tree (p : Params) (fs : List Frame) (v : Nat) : (feed p v fs).tree p [] = plugTree p fs v := by
  induction fs generalizing v with
  | nil => rfl
  | cons f fs ih =>
    obtain ⟨c, k, split, high⟩ := f
    rcases split with _ | h
    · rfl
    rcases high with _ | hv
    · have key := enter_tree p c.half (k - h) ({ width := c, k := k, split := some h, high := some v } :: fs)
      simp only [feed, plugTree]
      rcases he : enter p c.half (k - h) ({ width := c, k := k, split := some h, high := some v } :: fs) with lv | ⟨w, d⟩ | e
      all_goals
        rw [he] at key
        simp only [Progress.tree, plugTree] at key ⊢
      · rw [← key]
        exact ih _
      · exact key
      · exact key
    · simp only [feed, plugTree, ih]

/-- `continueWith` resumes the position. -/
theorem continueWith_tree (p : Params) (w : Work) (a : Nat) : (continueWith p w a).tree p [] = resumeTree p w a := by
  obtain ⟨frames, sampler⟩ := w
  rcases sampler with _ | k
  · rcases frames with _ | ⟨⟨c, k, split, high⟩, fs⟩
    · rfl
    · rcases split with _ | h
      · have key := enter_tree p c.half a ({ width := c, k := k, split := some a, high := high } :: fs)
        simp only [continueWith, resumeTree]
        rcases he : enter p c.half a ({ width := c, k := k, split := some a, high := high } :: fs) with hv | ⟨w, d⟩ | e
        all_goals
          rw [he] at key
          simp only
        · rw [feed_tree]
          exact key
        · exact key
        · exact key
      · rfl
  · simp only [continueWith, resumeTree, finishByte, entryTree]
    rcases romEntry k a with f | b
    · rfl
    · exact feed_tree p frames b.toNat

end Sys2Proof.Machine
end

