-- ==== Sys2Proof/Laws/Invariant.lean ====
section
/-! SUPPORT. Popcounts of concatenated values, the samples of a width, and the parts of the invariant. -/

namespace Sys2Proof

theorem popcount_zero (n : Nat) : popcount n 0 = 0 := by
  induction n with
  | zero => rfl
  | succ n ih => simp [popcount, ih]

theorem popcount_le (n v : Nat) : popcount n v ≤ n := by
  induction n generalizing v with
  | zero => simp [popcount]
  | succ n ih =>
    have := ih (v / 2)
    simp only [popcount]
    omega

theorem popcount_ones (n : Nat) : popcount n (2 ^ n - 1) = n := by
  induction n with
  | zero => rfl
  | succ n ih =>
    have hpos := Nat.two_pow_pos n
    have hpow : 2 ^ (n + 1) = 2 * 2 ^ n := by ring
    simp only [popcount]
    rw [show (2 ^ (n + 1) - 1) % 2 = 1 by omega, show (2 ^ (n + 1) - 1) / 2 = 2 ^ n - 1 by omega, ih]
    omega

/-- The popcount of a value is the sum of the popcounts of its two parts. -/
theorem popcount_concat (n m hv lv : Nat) (h : lv < 2 ^ m) :
    popcount (m + n) (hv * 2 ^ m + lv) = popcount m lv + popcount n hv := by
  induction m generalizing hv lv with
  | zero =>
    have : lv = 0 := by simpa using h
    simp [this, popcount]
  | succ m ih =>
    have hpow : hv * 2 ^ (m + 1) = 2 * (hv * 2 ^ m) := by ring
    rw [show m + 1 + n = (m + n) + 1 by omega]
    simp only [popcount]
    rw [show (hv * 2 ^ (m + 1) + lv) / 2 = hv * 2 ^ m + lv / 2 by omega,
      show (hv * 2 ^ (m + 1) + lv) % 2 = lv % 2 by omega, ih hv (lv / 2) (by omega)]
    omega

end Sys2Proof

namespace Sys2Proof.Machine

theorem isSample_iff (w : Width) (k v : Nat) :
    isSample w k v = true ↔ k ≤ w.bits ∧ popcount w.bits v = k ∧ v < 2 ^ w.bits := by
  simp [isSample, and_assoc]

/-- Only addresses 0..255 of POP_ROM exist (R20). -/
theorem romRead_isSome_iff (a : Nat) : (romRead a).isSome = true ↔ a < 256 := by
  have hlen : popRom.length = 256 := by decide +kernel
  simp [romRead, hlen]

theorem framesWaitFor_cons (f : Frame) (fs : List Frame) (w : Width) (k : Nat) (gw : Width) (gk : Nat) :
    framesWaitFor (f :: fs) w k gw gk = true ↔
      w = f.width.half ∧ 0 < f.k ∧ f.k < f.width.bits ∧
      (∃ h, f.split = some h ∧ splitLo f.width f.k ≤ h ∧ h ≤ splitHi f.width f.k ∧
        ((f.high = none ∧ k = h) ∨
          ∃ hv, f.high = some hv ∧ k = f.k - h ∧ isSample f.width.half h hv = true)) ∧
      framesWaitFor fs (.composed f.width) f.k gw gk = true := by
  rcases f with ⟨c, fk, split, high⟩
  rcases split with _ | h <;> rcases high with _ | hv <;> simp [framesWaitFor, and_assoc]

/-- What a well-placed state with a draw outstanding is. -/
theorem wellPlaced_asking_iff {s : State} {d : DrawReq} (h : s.phase = .busy) (hd : s.drawOut = some d) :
    s.wellPlaced = true ↔
      s.rspBuf = none ∧ ∃ i gw gk, staticCheck hardware s.cur = none ∧ decode hardware s.cur = .instr i ∧
        genOperands i = some (gw, gk) ∧ workWaitsFor s.work d gw gk = true := by
  unfold State.wellPlaced
  simp only [h, hd]
  rcases staticCheck hardware s.cur with _ | _ <;> rcases decode hardware s.cur with i | _ <;> simp
  rcases genOperands i with _ | ⟨gw, gk⟩ <;> simp

/-- A response that the rules allow for the command in CUR leaves a well-placed state. -/
theorem respond_wellPlaced {s : State} {r : Response} (h : allowedResponse s.cur r = true) :
    (respond r s).wellPlaced = true := by
  simp [State.wellPlaced, h]

end Sys2Proof.Machine
end

