-- ==== Sys2Proof/Laws/PerInstr.lean ====
section
/-! SUPPORT. The family RowPattern: the encoding of every command matches its row of the opcode map (R42). -/

namespace Sys2Proof.Laws

/-- The encoding of `i`, whatever its operands, matches the row of the opcode map that `i` belongs to (R42). -/
def RowPattern.Statement (i : Instr) : Prop := (rowOf i).accepts (encode i) = true

theorem and_mask_of_bits {w m p : Word} (h : ∀ j < 32, (w.getLsbD j && m.getLsbD j) = p.getLsbD j) : w &&& m = p :=
  BitVec.eq_of_getLsbD_eq fun j hj => by rw [BitVec.getLsbD_and]; exact h j hj

theorem RowPattern.genW8 (k : Nat) : RowPattern.Statement (.genW8 k) :=
  decide_eq_true <| and_mask_of_bits fun j hj => by
    simp only [encode, assembleFields, rowOf, BitVec.getLsbD_append]
    interval_cases j <;> simp

theorem RowPattern.genW16 (k : Nat) : RowPattern.Statement (.genW16 k) :=
  decide_eq_true <| and_mask_of_bits fun j hj => by
    simp only [encode, assembleFields, rowOf, BitVec.getLsbD_append]
    interval_cases j <;> simp

theorem RowPattern.genW32 (k : Nat) : RowPattern.Statement (.genW32 k) :=
  decide_eq_true <| and_mask_of_bits fun j hj => by
    simp only [encode, assembleFields, rowOf, BitVec.getLsbD_append]
    interval_cases j <;> simp

theorem RowPattern.genW64 (k : Nat) : RowPattern.Statement (.genW64 k) :=
  decide_eq_true <| and_mask_of_bits fun j hj => by
    simp only [encode, assembleFields, rowOf, BitVec.getLsbD_append]
    interval_cases j <;> simp

theorem RowPattern.genW128 (k : Nat) : RowPattern.Statement (.genW128 k) :=
  decide_eq_true <| and_mask_of_bits fun j hj => by
    simp only [encode, assembleFields, rowOf, BitVec.getLsbD_append]
    interval_cases j <;> simp

theorem RowPattern.romrd (k i : Nat) : RowPattern.Statement (.romrd k i) :=
  decide_eq_true <| and_mask_of_bits fun j hj => by
    simp only [encode, assembleFields, rowOf, BitVec.getLsbD_append]
    interval_cases j <;> simp

theorem RowPattern.romsz (k : Nat) : RowPattern.Statement (.romsz k) :=
  decide_eq_true <| and_mask_of_bits fun j hj => by
    simp only [encode, assembleFields, rowOf, BitVec.getLsbD_append]
    interval_cases j <;> simp

end Sys2Proof.Laws
end

