-- ==== Sys2Proof/Tests/Slice0.lean ====
section
/-! SUPPORT. Tests. Every expected value is one that spec/ gives: V-… and P… name rows of 95_test_vectors.md. A theorem
`witness_<Name>` shows operands and states that meet the hypotheses of Obligations.<Name>, at the ends of their ranges. -/

namespace Sys2Proof.Tests

open Sys2Proof Sys2Proof.Machine

set_option Elab.async false

/-! ## Helpers -/

/-- The block with the word `w` accepted and not yet checked, and the answers `as` at hand. -/
def running (w : Word) (as : List Byte) : State :=
  { State.reset with phase := .busy, cur := w, inputs := answerInputs as }

/-- The next state, or the reset state where there is none. -/
def after : Host.Outcome State Fault Refusal → State
  | .next t => t
  | _ => State.reset

/-- The outcome is the next state `t`. -/
def answersNext (o : Host.Outcome State Fault Refusal) (t : State) : Bool :=
  match o with
  | .next s => decide (s = t)
  | _ => false

theorem eq_next_of_answersNext {o : Host.Outcome State Fault Refusal} {t : State} (h : answersNext o t = true) :
    o = .next t := by
  cases o <;> simp_all [answersNext]

/-- The walk ends in the value `v` with every answer used. -/
def endsIn (f : Followed) (v : Nat) : Bool :=
  match f with
  | .value x _ [] => decide (x = v)
  | _ => false

theorem exists_draws_of_endsIn {f : Followed} {v : Nat} (h : endsIn f v = true) : ∃ ds, f = .value v ds [] := by
  rcases f with ⟨x, ds, _ | _⟩ | _ | _ | _ <;> simp_all [endsIn]

/-- What a step from `running w as` draws, and the response it leaves. -/
def outcome (w : Word) (as : List Byte) : List (Nat × Nat × Nat) × Option Response :=
  let t := after (step (running w as))
  ((drawsOf t.history).map (fun d => (d.kind.code.toNat, d.lo.toNat, d.hi.toNat)), t.rspBuf)

/-- What a step from `running w as` responds. -/
def response (w : Word) (as : List Byte) : Option Response := (after (step (running w as))).rspBuf

/-- The block waiting for the answer to the byte draw of GEN.W8 2. -/
def waiting : State := after (step (running 0x00000002#32 []))

/-- The block offering the response of ROMSZ 3. -/
def offering : State := after (step (running 0x80000003#32 []))

/-- The width of a GEN command as a number of bits. -/
def genBits (i : Instr) : Option Nat := (genOperands i).map (fun x => x.1.bits)

/-! ## WellFormed refuses each ill-formed term -/

theorem test_wf_refuses_k_256 :
    WellFormed hardware (.genW8 256) = false ∧ WellFormed hardware (.genW16 256) = false ∧
    WellFormed hardware (.genW32 256) = false ∧ WellFormed hardware (.genW64 256) = false ∧
    WellFormed hardware (.genW128 256) = false ∧ WellFormed hardware (.romrd 256 0) = false ∧
    WellFormed hardware (.romsz 256) = false := by decide

theorem test_wf_refuses_idx_128 : WellFormed hardware (.romrd 0 128) = false := by decide

theorem test_wf_refuses_w128_on_a_64_bit_block :
    WellFormed { maxWidth := .w64, skipSingletonByteDraw := false } (.genW128 1) = false := by decide

/-- A k above the width is well formed: it fails in the block (R45). -/
theorem test_wf_admits_the_largest_operands :
    WellFormed hardware (.genW8 255) = true ∧ WellFormed hardware (.genW128 255) = true ∧
    WellFormed hardware (.romrd 255 127) = true ∧ WellFormed hardware (.romsz 255) = true := by decide

/-! ## Decoding: words written field by field, OP RSV_A IDX RSV_B WSEL K (R34) -/

theorem test_decode_genW8 : decode hardware 0b00_0000000_0000000_00000_000_00000010#32 = .instr (.genW8 2) := by decide
theorem test_decode_genW16 : decode hardware 0b00_0000000_0000000_00000_001_00001111#32 = .instr (.genW16 15) := by decide
theorem test_decode_genW32 : decode hardware 0b00_0000000_0000000_00000_010_00001011#32 = .instr (.genW32 11) := by decide
theorem test_decode_genW64 : decode hardware 0b00_0000000_0000000_00000_011_00111111#32 = .instr (.genW64 63) := by decide
theorem test_decode_genW128 : decode hardware 0b00_0000000_0000000_00000_100_10000000#32 = .instr (.genW128 128) := by decide
theorem test_decode_romrd : decode hardware 0b01_0000000_1000101_00000_000_00000100#32 = .instr (.romrd 4 69) := by decide
theorem test_decode_romsz : decode hardware 0b10_0000000_0000000_00000_000_00000011#32 = .instr (.romsz 3) := by decide

/-- V-E1 to V-E8 and V-E12. -/
theorem test_decode_invalid :
    decode hardware 0xC0000002#32 = .invalid .invalidOp ∧ decode hardware 0x00001102#32 = .invalid .reservedNonzero ∧
    decode hardware 0x00800001#32 = .invalid .reservedNonzero ∧ decode hardware 0x00010001#32 = .invalid .reservedNonzero ∧
    decode hardware 0x00000502#32 = .invalid .unsupportedWidth ∧ decode hardware 0x000007C8#32 = .invalid .unsupportedWidth ∧
    decode hardware 0x40000102#32 = .invalid .reservedNonzero ∧ decode hardware 0x80010002#32 = .invalid .reservedNonzero ∧
    decode hardware 0xFFFFFFFF#32 = .invalid .invalidOp := by decide

/-- The CMD column of V-B13, V-C4, V-C9, V-C17, V-C25, V-R21 and V-R9. -/
theorem test_encode :
    encode (.genW8 255) = 0x000000FF#32 ∧ encode (.genW16 15) = 0x0000010F#32 ∧ encode (.genW32 11) = 0x0000020B#32 ∧
    encode (.genW64 64) = 0x00000340#32 ∧ encode (.genW128 1) = 0x00000401#32 ∧ encode (.romrd 4 69) = 0x40450004#32 ∧
    encode (.romsz 8) = 0x80000008#32 := by decide

theorem test_decodeTableWord :
    decodeTableWord 32 0x40450004 = some (.romrd 4 69) ∧ decodeTableWord 32 0xC0000002 = none := by decide

/-- R44: a command is exactly 32 bits, so what is shorter or longer is none, and so is a value that 32 bits do not hold. -/
theorem test_decodeTableWord_other_lengths :
    decodeTableWord 8 2 = none ∧ decodeTableWord 16 2 = none ∧ decodeTableWord 31 2 = none ∧ decodeTableWord 33 2 = none ∧
    decodeTableWord 64 2 = none ∧ decodeTableWord 32 (2 ^ 32 + 2) = none := by decide

theorem test_assembler_lines :
    readStmt "GEN.W32 11".toList = some (.gen 32 11) ∧ readStmt "ROMRD 4, 69".toList = some (.romrd 4 69) ∧
    readStmt "ROMSZ 0x8".toList = some (.romsz 8) ∧ readStmt "SAMPLEBYTE 2".toList = some (.sampleByte 2) ∧
    readStmt "ZEROS.W16".toList = some (.zeros 16) ∧ readStmt "ONES.W128".toList = some (.ones 128) := by decide +kernel

/-- R45: a number is decimal, or hexadecimal with the prefix 0x. -/
theorem test_assembler_numbers :
    readNumber "127".toList = some 127 ∧ readNumber "0xFF".toList = some 255 ∧ readNumber "0x1c".toList = some 28 ∧
    readNumber "0xG".toList = none ∧ readNumber "1A".toList = none ∧ readNumber "0x".toList = none ∧
    readNumber "".toList = none := by decide +kernel

/-- P2 steps 1 and 2, P3 step 2, and R45's 'does not reject k > W'. -/
theorem test_assemble :
    (assemble hardware (.zeros 16)).map encode = some 0x00000100#32 ∧
    (assemble hardware (.ones 16)).map encode = some 0x00000110#32 ∧
    (assemble hardware (.sampleByte 2)).map encode = some 0x00000002#32 ∧
    assemble hardware (.gen 16 17) = some (.genW16 17) ∧ assemble hardware (.gen 24 1) = none ∧
    assemble hardware (.gen 8 256) = none ∧ assemble hardware (.romrd 0 128) = none := by decide

/-! ## One step of each command -/

/-- V-B3. -/
theorem test_genW8_takes_the_entry_at_the_answer : outcome 0x00000002#32 [5] = ([(0, 0, 27)], some (.ok 0xC#128)) := by
  decide +kernel

/-- V-B10. -/
theorem test_genW8_aborts_on_an_answer_out_of_range : response 0x00000002#32 [28] = some (.error .drawRange) := by
  decide +kernel

/-- V-C3: the high half's byte comes first. -/
theorem test_genW16_puts_the_high_half_first :
    outcome 0x00000102#32 [1, 0, 7] = ([(1, 0, 2), (0, 0, 7), (0, 0, 7)], some (.ok 0x180#128)) := by decide +kernel

/-- V-C4. -/
theorem test_genW16_split_starts_above_zero :
    outcome 0x0000010F#32 [7, 3, 0] = ([(1, 7, 8), (0, 0, 7), (0, 0, 0)], some (.ok 0xEFFF#128)) := by decide +kernel

/-- V-C9 and P3 step 1. -/
theorem test_genW32_whole_walk :
    outcome 0x0000020B#32 [5, 2, 5, 0, 3, 10, 20] =
      ([(1, 0, 11), (1, 0, 5), (0, 0, 27), (0, 0, 55), (1, 0, 6), (0, 0, 55), (0, 0, 55)], some (.ok 0xC072343#128)) := by
  decide +kernel

/-- V-C10: both halves take their shortcut. -/
theorem test_genW32_shortcuts_inside : outcome 0x00000210#32 [16] = ([(1, 0, 16)], some (.ok 0xFFFF0000#128)) := by
  decide +kernel

/-- V-C18a. -/
theorem test_genW64_deep :
    outcome 0x0000033F#32 [31, 15, 7, 5, 0] =
      ([(1, 31, 32), (1, 15, 16), (1, 7, 8), (0, 0, 7), (0, 0, 0)], some (.ok 0xFBFFFFFFFFFFFFFF#128)) := by decide +kernel

/-- V-C15a: the answer to the fourth draw is out of range. -/
theorem test_genW64_aborts_inside : response 0x00000301#32 [0, 0, 0, 1] = some (.error .drawRange) := by decide +kernel

/-- V-C25. -/
theorem test_genW128_deep :
    outcome 0x00000401#32 [1, 0, 0, 0, 0, 1] =
      ([(1, 0, 1), (1, 0, 1), (1, 0, 1), (1, 0, 1), (0, 0, 0), (0, 0, 7)], some (.ok 0x20000000000000000#128)) := by
  decide +kernel

/-- V-C22 and V-E11. -/
theorem test_genW128_ends : outcome 0x00000480#32 [] = ([], some (.ok 0xFFFFFFFFFFFFFFFFFFFFFFFFFFFFFFFF#128)) ∧
    outcome 0x00000481#32 [] = ([], some (.error .popcountRange)) := by decide +kernel

/-- V-R21. -/
theorem test_romrd_last_of_the_largest_bucket : response 0x40450004#32 [] = some (.ok 0xF0#128) := by decide +kernel

/-- V-R27 and V-R31. -/
theorem test_romrd_errors : response 0x40460004#32 [] = some (.error .indexRange) ∧
    response 0x40000009#32 [] = some (.error .popcountRange) := by decide +kernel

/-- V-R5. -/
theorem test_romsz_of_the_largest_bucket : response 0x80000004#32 [] = some (.ok 70#128) := by decide +kernel

/-- V-R10. -/
theorem test_romsz_error : response 0x80000009#32 [] = some (.error .popcountRange) := by decide +kernel

/-- V-E5 and V-E6: the width is checked before the popcount. -/
theorem test_invalid_word : response 0x00000502#32 [] = some (.error .unsupportedWidth) ∧
    response 0x000007C8#32 [] = some (.error .unsupportedWidth) := by decide +kernel

/-! ## The parameters -/

/-- V-B14, V-P1 and V-P2: with SKIP_SINGLETON_BYTE_DRAW the one-entry buckets are not drawn for. -/
theorem test_skip_singleton_draws :
    (sampleTree { maxWidth := .w128, skipSingletonByteDraw := true } .w8 0).follow [] = .value 0 [] [] ∧
    (sampleTree { maxWidth := .w128, skipSingletonByteDraw := true } (.composed .w16) 2).follow [0, 0] =
      .value 3 [splitRequest .w16 2, indexRequest 28] [] ∧
    (sampleTree { maxWidth := .w128, skipSingletonByteDraw := true } (.composed .w16) 15).follow [7, 3] =
      .value 0xEFFF [splitRequest .w16 15, indexRequest 8] [] := by decide +kernel

/-- V-P3: with MAX_WIDTH = 64 the width 128 is not supported. -/
theorem test_max_width_64 :
    decode { maxWidth := .w64, skipSingletonByteDraw := false } 0x00000401#32 = .invalid .unsupportedWidth := by decide

/-! ## The block -/

/-- A command comes from the requester: it is offered, accepted and run, one step each (P1 step 1). -/
theorem test_from_reset_to_a_response :
    (after (runSteps 3 { State.reset with inputs := [.command 0x80000000#32] })).rspBuf = some (.ok 1#128) := by decide +kernel

theorem test_withFetchWord : (after (step (State.reset.withFetchWord 32 0x80000004))).rspBuf = some (.ok 70#128) := by
  decide +kernel

/-- R12: taking the response leads back to IDLE. -/
theorem test_take : (after (step { offering with inputs := [.take] })).phase = .idle ∧
    (after (step { offering with inputs := [.take] })).rspBuf = none := by decide +kernel

/-- R80: a reset while a draw is outstanding. CUR is not looked at: its value is free. -/
theorem test_reset_withdraws_the_draw :
    waiting.drawOut.isSome = true ∧ (after (step { waiting with inputs := [.reset] })).drawOut = none ∧
    (after (step { waiting with inputs := [.reset] })).phase = .idle := by decide +kernel

/-- R82: a command offered while another waits is held, and CUR stays. -/
theorem test_offered_command_is_held :
    (after (step { waiting with inputs := [.command 0x80000000#32] })).cmdIn = [0x80000000#32] ∧
    (after (step { waiting with inputs := [.command 0x80000000#32] })).cur = 0x00000002#32 := by decide +kernel

/-- R58: the command goes on where it waited. -/
theorem test_waiting_goes_on : (after (step { waiting with inputs := [.answer 5] })).rspBuf = some (.ok 0xC#128) := by
  decide +kernel

/-! ## Witnesses: hypotheses that can be met -/

theorem witness_EncodedCommandsDecodeBack :
    WellFormed hardware (.genW8 0) = true ∧ WellFormed hardware (.genW128 255) = true ∧
    WellFormed hardware (.romrd 255 127) = true ∧
    WellFormed { maxWidth := .w64, skipSingletonByteDraw := true } (.genW64 255) = true := by decide

theorem witness_DecodedWordsAreTheirEncodings :
    decode hardware 0x407F00FF#32 = .instr (.romrd 255 127) ∧ decode hardware 0#32 = .instr (.genW8 0) := by decide

theorem witness_DecoderFollowsTheOpcodeMap :
    rowOf (.romrd 0 0) ∈ opcodeMap ∧ (rowOf (.romrd 0 0)).accepts 0x407F00FF#32 = true ∧
    (∀ r ∈ opcodeMap, r.accepts 0x00000500#32 = false) := by decide +kernel

/-- The last supported WSEL, the first unsupported one, and the last. -/
theorem witness_WselSelectsTheWidth :
    [0x000004FF#32, 0x00000500#32, 0x000007FF#32, 0x00000000#32].all (fun w =>
      decide (fieldOp w = 0b00#2 ∧ fieldRsvA w = 0 ∧ fieldRsvB w = 0 ∧ fieldIdx w = 0)) = true := by decide +kernel

/-- One word for each clause, with the field at 1 and, in the others, at its top bit. -/
theorem witness_ReservedFieldsAreNeverIgnored :
    (fieldOp 0x00800000#32 ≠ 0b11#2 ∧ fieldRsvA 0x00800000#32 ≠ 0) ∧
    (fieldOp 0x80008000#32 ≠ 0b11#2 ∧ fieldRsvB 0x80008000#32 ≠ 0) ∧
    (fieldOp 0x00400000#32 ≠ 0b11#2 ∧ fieldIdx 0x00400000#32 ≠ 0 ∧ fieldOp 0x00400000#32 ≠ 0b01#2) ∧
    (fieldOp 0x40000400#32 ≠ 0b11#2 ∧ fieldWsel 0x40000400#32 ≠ 0 ∧ fieldOp 0x40000400#32 ≠ 0b00#2) := by decide

theorem witness_AssemblerFollowsItsTable :
    assemble hardware (.gen 128 255) = some (.genW128 255) ∧ assemble hardware (.romrd 255 127) = some (.romrd 255 127) ∧
    assemble hardware (.romrd 255 128) = none ∧ assemble hardware (.romsz 256) = none ∧
    (assemble hardware (.gen 8 255)).isSome = true := by decide

/-- R46: the first and the last entry of the largest bucket, and the first popcount with no bucket. -/
theorem witness_EntriesComeFromTheirBucket :
    romEntry 4 0 = .ok 0x0F#8 ∧ romEntry 4 69 = .ok 0xF0#8 ∧ lookup 9 = none ∧
    romEntry 9 0 = .error .lookupOutOfRange := by decide +kernel

/-- R20, R23: the ends of the table, one entry for each end of the ranges of the two ROM layout statements. -/
theorem witness_RomIsLaidOutBucketByBucket :
    romRead 0 = some 0x00#8 ∧ romRead 93 = some 0x0F#8 ∧ romRead 255 = some 0xFF#8 ∧ romRead 256 = none ∧
    (offsetRom 8).map BitVec.toNat = some 255 ∧ (sizeRom 0).map BitVec.toNat = some 1 := by decide +kernel

theorem witness_RomIsAPermutationByPopcount : lookup 0 = some [0x00#8] ∧ lookup 8 = some [0xFF#8] := by decide +kernel

theorem witness_AnswersMapOneToOneOntoTheBucket :
    69 < Nat.choose 8 4 ∧ popcount 8 (0xF0#8).toNat = 4 ∧ 0 < Nat.choose 8 0 ∧ popcount 8 (0x00#8).toNat = 0 := by
  decide +kernel

/-- The ends of IDX in the smallest and the largest bucket. -/
theorem witness_RomrdAnswersTheEntry : (0 ≤ 8 ∧ 0 < Nat.choose 8 0) ∧ (4 ≤ 8 ∧ 69 < Nat.choose 8 4) ∧
    (8 ≤ 8 ∧ 0 < Nat.choose 8 8) := by decide

/-- The first value of each clause; k = 9 with i = 0 is under the first alone. -/
theorem witness_RomrdRaisesItsRangeErrors : 8 < 9 ∧ (8 ≤ 8 ∧ Nat.choose 8 8 ≤ 1) ∧ (4 ≤ 8 ∧ Nat.choose 8 4 ≤ 70) := by
  decide

theorem witness_RomszAnswersTheSize : 0 ≤ 8 ∧ 8 ≤ 8 := by decide

theorem witness_RomszRaisesPopcountRange : 8 < 9 := by decide

/-- V-B6: the last answer of the largest bucket; and the only answer of the last bucket. -/
theorem witness_GenW8SamplesOneByte :
    (4 ≤ 8 ∧ (running 0x00000004#32 [69]).inputs = [.answer 69#8] ∧ (69#8).toNat < Nat.choose 8 4) ∧
    (8 ≤ 8 ∧ (running 0x00000008#32 [0]).inputs = [.answer 0#8] ∧ (0#8).toNat < Nat.choose 8 8) := by decide

/-- V-C3, V-C4 and V-C6b: answers at both ends of the split. -/
theorem witness_GenW16SplitsThenSamplesTwoBytes :
    (0 < 15 ∧ 15 < 16 ∧ (running 0x0000010F#32 [7, 3, 0]).inputs = [.answer 7#8, .answer 3#8, .answer 0#8] ∧
      15 - 8 ≤ (7#8).toNat ∧ (7#8).toNat ≤ min 15 8 ∧ (3#8).toNat < Nat.choose 8 (7#8).toNat ∧
      (0#8).toNat < Nat.choose 8 (15 - (7#8).toNat)) ∧
    (0 < 1 ∧ 1 < 16 ∧ (running 0x00000101#32 [0, 0, 4]).inputs = [.answer 0#8, .answer 0#8, .answer 4#8] ∧
      1 - 8 ≤ (0#8).toNat ∧ (0#8).toNat ≤ min 1 8 ∧ (0#8).toNat < Nat.choose 8 (0#8).toNat ∧
      (4#8).toNat < Nat.choose 8 (1 - (0#8).toNat)) := by decide

/-- Every width at both ends. -/
theorem witness_BoundaryValuesOfEveryWidth :
    (∀ x ∈ [(Instr.genW16 16, ComposerWidth.w16), (.genW32 32, .w32), (.genW64 64, .w64), (.genW128 128, .w128)],
      genOperands x.1 = some (.composed x.2, x.2.bits)) ∧
    genOperands (.genW128 0) = some (.composed .w128, 0) ∧
    (running 0x00000008#32 [0]).inputs = [.answer 0] := by decide

/-- One answer sequence for each case of the match: V-C9, V-C6i, and no answer at all. The third asks for a `rest` that does
not begin with an answer: the empty one. -/
theorem witness_GenRunsTheRecursiveDefinition :
    (∃ ds, (sampleTree hardware (.composed .w32) 11).follow [5, 2, 5, 0, 3, 10, 20] = .value 0xC072343 ds []) ∧
    (sampleTree hardware (.composed .w16) 2).follow [3] = .aborted [splitRequest .w16 2] [] ∧
    (sampleTree hardware (.composed .w128) 127).follow [] = .waiting [splitRequest .w128 127] ∧
    (∀ v l, ([] : List Input) ≠ .answer v :: l) :=
  ⟨exists_draws_of_endsIn (by decide +kernel), by decide +kernel, by decide +kernel, nofun⟩

/-- Each of the five forms, on its vector V-B3, V-C4, V-C9, V-C18a, V-C25. -/
theorem witness_GenCompletesOnAnswersInRange :
    (genOperands (.genW8 2) = some (.w8, 2) ∧ ∃ ds, (sampleTree hardware .w8 2).follow [5] = .value 0xC ds []) ∧
    (genOperands (.genW16 15) = some (.composed .w16, 15) ∧
      ∃ ds, (sampleTree hardware (.composed .w16) 15).follow [7, 3, 0] = .value 0xEFFF ds []) ∧
    (genOperands (.genW32 11) = some (.composed .w32, 11) ∧
      ∃ ds, (sampleTree hardware (.composed .w32) 11).follow [5, 2, 5, 0, 3, 10, 20] = .value 0xC072343 ds []) ∧
    (genOperands (.genW64 63) = some (.composed .w64, 63) ∧
      ∃ ds, (sampleTree hardware (.composed .w64) 63).follow [31, 15, 7, 5, 0] = .value 0xFBFFFFFFFFFFFFFF ds []) ∧
    (genOperands (.genW128 1) = some (.composed .w128, 1) ∧
      ∃ ds, (sampleTree hardware (.composed .w128) 1).follow [1, 0, 0, 0, 0, 1] = .value 0x20000000000000000 ds []) :=
  ⟨⟨rfl, exists_draws_of_endsIn (by decide +kernel)⟩, ⟨rfl, exists_draws_of_endsIn (by decide +kernel)⟩,
    ⟨rfl, exists_draws_of_endsIn (by decide +kernel)⟩, ⟨rfl, exists_draws_of_endsIn (by decide +kernel)⟩,
    ⟨rfl, exists_draws_of_endsIn (by decide +kernel)⟩⟩

theorem witness_GenResultHasTheWeightAskedFor :
    genOperands (.genW16 15) = some (.composed .w16, 15) ∧
    (after (exec (.genW16 15) (running 0x0000010F#32 [7, 3, 0]))).phase = .respond ∧
    (after (exec (.genW16 15) (running 0x0000010F#32 [7, 3, 0]))).rspBuf = some (.ok 0xEFFF#128) := by decide +kernel

theorem witness_EveryValueHasOneAnswerSequence :
    2 ≤ (Width.composed .w16).bits ∧ 0x180 < 2 ^ (Width.composed .w16).bits ∧
    popcount (Width.composed .w16).bits 0x180 = 2 ∧ popcount Width.w8.bits 255 = 8 := by decide +kernel

/-- One k of each kind: W = 8, k = 0, k = 1, k = W − 1 and k = W. -/
theorem witness_DrawRangesMultiplyToTheBinomialAtTheEnds :
    (∃ ds, (sampleTree hardware .w8 4).follow [69] = .value 0xF0 ds []) ∧
    (∃ ds, (sampleTree hardware (.composed .w64) 0).follow [] = .value 0 ds []) ∧
    (∃ ds, (sampleTree hardware (.composed .w16) 1).follow [0, 0, 4] = .value 0x10 ds []) ∧
    (∃ ds, (sampleTree hardware (.composed .w16) 15).follow [8, 0, 0] = .value 0xFF7F ds []) ∧
    (∃ ds, (sampleTree hardware (.composed .w32) 32).follow [] = .value 0xFFFFFFFF ds []) :=
  ⟨exists_draws_of_endsIn (by decide +kernel), exists_draws_of_endsIn (by decide +kernel),
    exists_draws_of_endsIn (by decide +kernel), exists_draws_of_endsIn (by decide +kernel),
    exists_draws_of_endsIn (by decide +kernel)⟩

/-- The W8 command with one draw, and the W16 command with three. -/
theorem witness_DrawsStayWithinTheirBound :
    (8 ≤ Width.w8.bits ∧ (sampleTree hardware .w8 8).follow [0] = .value 255 [indexRequest 1] []) ∧
    (1 ≤ (Width.composed .w16).bits ∧ ∃ ds, (sampleTree hardware (.composed .w16) 1).follow [0, 0, 4] = .value 0x10 ds []) :=
  ⟨⟨by decide, by decide +kernel⟩, ⟨by decide, exists_draws_of_endsIn (by decide +kernel)⟩⟩

/-- V-E5 and V-B12. -/
theorem witness_InvalidGenIssuesNoDrawAndNoValue :
    ∀ x ∈ [(0x00000502#32, Reason.unsupportedWidth), (0x00000009#32, .popcountRange), (0x00001102#32, .reservedNonzero)],
      (running x.1 []).phase = .busy ∧ (running x.1 []).drawOut = none ∧ (running x.1 []).undisturbed = true ∧
      fieldOp (running x.1 []).cur = 0b00#2 ∧ staticCheck hardware (running x.1 []).cur = some x.2 := by decide +kernel

/-- V-C6, whose shorter form is V-P1. -/
theorem witness_SkippingSingletonDrawsKeepsTheResult :
    2 ≤ (Width.composed .w16).bits ∧
    ∃ ds, (sampleTree { maxWidth := .w128, skipSingletonByteDraw := false } (.composed .w16) 2).follow [0, 0, 0] =
      .value 3 ds [] :=
  ⟨by decide, exists_draws_of_endsIn (by decide +kernel)⟩

/-- The first and the last k of the smallest and of the largest width; W = 128 and k = 64 meet the middle. -/
theorem witness_SplitRangeIsTheFeasibleOne :
    (0 < 1 ∧ 1 < ComposerWidth.w16.bits) ∧ (0 < 15 ∧ 15 < ComposerWidth.w16.bits) ∧
    (0 < 127 ∧ 127 < ComposerWidth.w128.bits) ∧ splitLo .w16 15 = 7 ∧ splitHi .w16 15 = 8 := by decide

theorem witness_HalvesConcatenateWithoutOverlap :
    255 < 2 ^ ComposerWidth.w16.half.bits ∧ 0 < 2 ^ ComposerWidth.w128.half.bits ∧
    concatHalves .w16 0xEF 0xFF = 0xEFFF := by decide +kernel

/-- A command that responds, and one that waits. -/
theorem witness_CommandsChangeOnlyTheRequest :
    exec (.romsz 3) (running 0x80000003#32 []) = .next offering ∧
    exec (.genW8 2) (running 0x00000002#32 []) = .next waiting :=
  ⟨eq_next_of_answersNext (by decide +kernel), eq_next_of_answersNext (by decide +kernel)⟩

theorem witness_CommandsDependOnTheirAnswersAlone :
    (running 0x00000002#32 []).inputs = offering.inputs ∧ running 0x00000002#32 [] ≠ offering ∧
    exec (.genW8 2) (running 0x00000002#32 []) = .next waiting :=
  ⟨by decide +kernel, by decide +kernel, eq_next_of_answersNext (by decide +kernel)⟩

/-- The first k above each width. -/
theorem witness_GenRaisesPopcountRange :
    genOperands (.genW8 9) = some (.w8, 9) ∧ Width.w8.bits < 9 ∧
    genOperands (.genW128 129) = some (.composed .w128, 129) ∧ (Width.composed .w128).bits < 129 := by decide

/-- One word for each branch, and for the first part. -/
theorem witness_FirstFailedCheckIsReported :
    decode hardware 0xFFFFFFFF#32 = .invalid .invalidOp ∧
    (running 0x40460004#32 []).phase = .busy ∧ (running 0x40460004#32 []).drawOut = none ∧
    (running 0x40460004#32 []).undisturbed = true ∧
    staticCheck hardware (running 0x40460004#32 []).cur = some .indexRange ∧
    staticCheck hardware (running 0x40450004#32 []).cur = none := by decide +kernel

/-- V-B10: one above HI; and V-C6j's kind, one below LO, at the split of GEN.W16 15. -/
theorem witness_AnswerOutOfRangeAborts :
    (waiting.phase = .busy ∧ waiting.drawOut = some (indexRequest 28) ∧ (27#8).toNat < (28#8).toNat ∧
      (indexRequest 28).hi = 27#8) ∧
    ((after (step (running 0x0000010F#32 []))).drawOut = some (splitRequest .w16 15) ∧
      (6#8).toNat < (splitRequest .w16 15).lo.toNat) := by decide +kernel

theorem witness_StepRunsTheDecodedCommand :
    (running 0x80000003#32 []).phase = .busy ∧ (running 0x80000003#32 []).drawOut = none ∧
    decode hardware (running 0x80000003#32 []).cur = .instr (.romsz 3) ∧
    (running 0x80000003#32 []).undisturbed = true ∧
    { running 0x80000003#32 [] with inputs := [.tick] }.inputs = [.tick] := by decide

theorem witness_IdleAcceptsTheOfferedCommand :
    { State.reset with cmdIn := [0#32] }.phase = .idle ∧ { State.reset with cmdIn := [0#32] }.cmdIn = [0#32] ∧
    { State.reset with cmdIn := [0#32] }.undisturbed = true := by decide

/-- For the offer: a block of each phase that can take it. For the rest: a command that runs while the next offer waits, a block
that waits with a command held, and a reset. -/
theorem witness_OfferedCommandsAreHeldWhileNotIdle :
    (canMove { waiting with inputs := [.command 0#32] } = false ∧ canMove { offering with inputs := [.command 0#32] } = false ∧
      canMove { State.reset with inputs := [.command 0#32] } = false) ∧
    ({ running 0x80000003#32 [] with inputs := [.command 0#32] }.phase ≠ .idle ∧
      canMove { running 0x80000003#32 [] with inputs := [.command 0#32] } = true ∧
      nextInput { running 0x80000003#32 [] with inputs := [.command 0#32] } ≠ .reset ∧
      step { running 0x80000003#32 [] with inputs := [.command 0#32] } = .next { offering with inputs := [.command 0#32] }) ∧
    ({ waiting with cmdIn := [0#32] }.phase ≠ .idle ∧
      (∀ w rest, { waiting with cmdIn := [0#32] }.inputs ≠ .command w :: rest) ∧
      step { waiting with cmdIn := [0#32] } = .next { waiting with cmdIn := [0#32] }) ∧
    (waiting.phase ≠ .idle ∧ ∃ t, step { waiting with inputs := [.reset], cmdIn := [0#32] } = .next t) :=
  ⟨by decide +kernel,
    ⟨by decide +kernel, by decide +kernel, by decide +kernel, eq_next_of_answersNext (by decide +kernel)⟩,
    ⟨by decide +kernel, nofun, eq_next_of_answersNext (by decide +kernel)⟩, ⟨by decide +kernel, _, rfl⟩⟩

theorem witness_TakingTheResponseReturnsToIdle :
    offering.phase = .respond ∧ offering.rspBuf = some (.ok 56#128) ∧ offering.drawOut = none ∧
    { offering with inputs := [.take] }.inputs = [.take] ∧ step offering = .next offering :=
  ⟨by decide +kernel, by decide +kernel, by decide +kernel, by decide +kernel, eq_next_of_answersNext (by decide +kernel)⟩

theorem witness_ResetReturnsToIdleFromAnywhere :
    { waiting with inputs := [.reset, .answer 5] }.inputs = .reset :: [.answer 5] ∧
    { waiting with inputs := [.reset, .answer 5] }.cmdIn = [] := by decide +kernel

theorem witness_UnsolicitedAnswersHaveNoEffect :
    { offering with inputs := [.answer 5] }.drawOut = none ∧ canMove { offering with inputs := [.answer 5] } = false ∧
    State.reset.drawOut = none ∧ canMove State.reset = false := by decide +kernel

theorem witness_WaitsAsLongAsTheSourceIsSilent :
    { waiting with inputs := [.tick, .take, .command 0#32] }.phase = .busy ∧
    { waiting with inputs := [.tick, .take, .command 0#32] }.drawOut = some (indexRequest 28) ∧
    (∀ x ∈ [Input.tick, .take, .command 0#32], endsTheWait x = false) := by decide +kernel

/-- GEN.W16 15 waits after its split answer. -/
theorem witness_WaitingDoesNotChangeTheOutcome :
    (running 0x0000010F#32 [7]).inputs = answerInputs [7] ∧
    exec (.genW16 15) (running 0x0000010F#32 [7]) = .next (after (exec (.genW16 15) (running 0x0000010F#32 [7]))) ∧
    (after (exec (.genW16 15) (running 0x0000010F#32 [7]))).phase = .busy :=
  ⟨by decide, eq_next_of_answersNext (by decide +kernel), by decide +kernel⟩

theorem witness_EveryCommandEndsInOneResponse :
    (running 0x00000440#32 (List.replicate 31 0)).phase = .busy ∧ (running 0x00000440#32 (List.replicate 31 0)).drawOut = none ∧
    (running 0x00000440#32 (List.replicate 31 0)).inputs = answerInputs (List.replicate 31 0) ++ [] ∧
    31 ≤ (List.replicate 31 (0#8)).length := by decide +kernel

/-- A state of each phase. -/
theorem witness_EveryStepKeepsTheBlockWellPlaced :
    State.reset.wellPlaced = true ∧ (running 0x0000010F#32 []).wellPlaced = true ∧ waiting.wellPlaced = true ∧
    (after (step (running 0x0000010F#32 [7, 3]))).wellPlaced = true ∧ offering.wellPlaced = true := by decide +kernel

theorem witness_EveryStepKeepsTheChannelOrder :
    { State.reset with cmdIn := [0#32] }.wellPlaced = true ∧ { State.reset with cmdIn := [0#32] }.historyFits = true ∧
    step { State.reset with cmdIn := [0#32] } =
      .next { State.reset with phase := .busy, cur := 0#32, history := [.accepted 0#32] } :=
  ⟨by decide +kernel, by decide +kernel, eq_next_of_answersNext (by decide +kernel)⟩

/-- V-C19: four frames while the byte draw waits. -/
theorem witness_NestingIsAtMostFour :
    (after (step (running 0x0000047F#32 [63, 31, 15, 7]))).wellPlaced = true ∧
    (after (step (running 0x0000047F#32 [63, 31, 15, 7]))).work.frames.length = 4 := by decide +kernel

end Sys2Proof.Tests
end

/-! PROOFS (00_scope.md). The family of O27 and O31: what the build parameters change (R4), and what a command depends on
(R10). -/

namespace Sys2Proof.Machine

/-! ## Following a tree of draws -/

/-- A walk that comes back to a value through a request: the first answer was in its range, and the rest of the walk gave
the value. -/
theorem follow_ask_eq_value {d : DrawReq} {go : Nat → DrawTree} {as unused : List Byte} {v : Nat} {ds : List DrawReq}
    (h : (DrawTree.ask d go).follow as = .value v ds unused) :
    ∃ a as' ds', as = a :: as' ∧ ds = d :: ds' ∧ d.inRange a = true ∧ (go a.toNat).follow as' = .value v ds' unused := by
  rcases as with _ | ⟨a, as'⟩
  · simp [DrawTree.follow] at h
  · by_cases ha : d.inRange a = true
    · rw [DrawTree.follow, if_pos ha] at h
      rcases hf : (go a.toNat).follow as' with ⟨x, ds', u⟩ | ⟨ds', u⟩ | ds' | f <;>
        simp only [hf, Followed.after, Followed.value.injEq, reduceCtorEq] at h
      obtain ⟨rfl, rfl, rfl⟩ := h
      exact ⟨a, as', ds', rfl, rfl, ha, hf⟩
    · simp [DrawTree.follow, ha] at h

theorem follow_ask_of_inRange {d : DrawReq} {a : Byte} (ha : d.inRange a = true) (go : Nat → DrawTree) (as : List Byte) :
    (DrawTree.ask d go).follow (a :: as) = ((go a.toNat).follow as).after d := by
  rw [DrawTree.follow, if_pos ha]

theorem dropSingletons_cons (d : DrawReq) (ds : List DrawReq) (a : Byte) (as : List Byte) :
    dropSingletons (d :: ds) (a :: as) =
      if d.rangeSize = 1 then dropSingletons ds as else a :: dropSingletons ds as := rfl

/-! ## Draws over one value (R4, R51) -/

/-- The second computation is the first without its requests over one value: it goes on at once where the first, answered
in range, would be. -/
inductive DrawTree.SkipsTo : DrawTree → DrawTree → Prop
  | ret (v : Nat) : SkipsTo (.ret v) (.ret v)
  | skip {d : DrawReq} {go : Nat → DrawTree} {t : DrawTree} : d.rangeSize = 1 →
      (∀ a : Byte, d.inRange a = true → SkipsTo (go a.toNat) t) → SkipsTo (.ask d go) t
  | keep {d : DrawReq} {go go' : Nat → DrawTree} : d.rangeSize ≠ 1 →
      (∀ a : Byte, d.inRange a = true → SkipsTo (go a.toNat) (go' a.toNat)) → SkipsTo (.ask d go) (.ask d go')

theorem DrawTree.SkipsTo.andThen {t t' : DrawTree} {g g' : Nat → DrawTree} (h : t.SkipsTo t')
    (hg : ∀ v, (g v).SkipsTo (g' v)) : (t.andThen g).SkipsTo (t'.andThen g') := by
  induction h with
  | ret v => exact hg v
  | skip hd _ ih => exact .skip hd ih
  | keep hd _ ih => exact .keep hd ih

/-- What `SkipsTo` means for a walk: without the answers to the requests over one value, the same value. -/
theorem DrawTree.SkipsTo.follow_eq_value {t t' : DrawTree} (h : t.SkipsTo t') {as unused : List Byte} {v : Nat}
    {ds : List DrawReq} (hf : t.follow as = .value v ds unused) :
    t'.follow (dropSingletons ds as ++ unused) = .value v (ds.filter (fun d => d.rangeSize ≠ 1)) unused := by
  induction h generalizing as ds with
  | ret x =>
    simp only [DrawTree.follow, Followed.value.injEq] at hf
    obtain ⟨rfl, rfl, rfl⟩ := hf
    rfl
  | skip hd _ ih =>
    obtain ⟨a, as, ds, rfl, rfl, ha, hf⟩ := follow_ask_eq_value hf
    simpa [dropSingletons_cons, hd] using ih a ha hf
  | keep hd _ ih =>
    obtain ⟨a, as, ds, rfl, rfl, ha, hf⟩ := follow_ask_eq_value hf
    have rest := ih a ha hf
    simp only [dropSingletons_cons, if_neg hd, List.cons_append, follow_ask_of_inRange ha, rest, Followed.after]
    simp [hd]

/-! ## The trees of sample(W, k) with and without such draws -/

/-- Widths go 128 → 64 → 32 → 16 → 8 (R56). -/
theorem width_induction {P : Width → Prop} (w8 : P .w8) (composed : ∀ c : ComposerWidth, P c.half → P (.composed c)) :
    ∀ w, P w
  | .w8 => w8
  | .composed c =>
    have h16 : P (.composed .w16) := composed .w16 w8
    have h32 : P (.composed .w32) := composed .w32 h16
    have h64 : P (.composed .w64) := composed .w64 h32
    match c with
    | .w16 => h16
    | .w32 => h32
    | .w64 => h64
    | .w128 => composed .w128 h64

theorem indexRequest_rangeSize {k : Nat} (hk : k ≤ 8) : (indexRequest (Nat.choose 8 k)).rangeSize = Nat.choose 8 k := by
  have := choose_eight_le hk
  simp only [DrawReq.rangeSize, indexRequest, BitVec.toNat_ofNat]
  omega

/-- A split that is drawn has at least two values (R54), so no SPLIT request is ever skipped. -/
theorem splitRequest_rangeSize_ne_one {c : ComposerWidth} {k : Nat} (h0 : 0 < k) (hk : k < c.bits) :
    (splitRequest c k).rangeSize ≠ 1 := by
  have h1 := half_bits c
  have h2 := half_bits_le c
  simp only [DrawReq.rangeSize, splitRequest, splitLo, splitHi, BitVec.toNat_ofNat]
  omega

theorem half_popcounts_of_inRange {c : ComposerWidth} {k : Nat} (hk : k ≤ c.bits) {a : Byte}
    (ha : (splitRequest c k).inRange a = true) : a.toNat ≤ c.half.bits ∧ k - a.toNat ≤ c.half.bits := by
  have h := (splitRequest_inRange_iff hk a).mp ha
  simp only [splitLo, splitHi] at h
  omega

theorem entryTree_of_lt {k i : Nat} (hk : k ≤ 8) (hi : i < Nat.choose 8 k) :
    ∃ b : Byte, entryTree k i = .ret b.toNat ∧ popcount 8 b.toNat = k := by
  obtain ⟨b, hb, hp⟩ := romEntry_of_lt hk hi
  exact ⟨b, by simp [entryTree, hb], hp⟩

/-- sampleByte(k) reads the only entry of a one-entry bucket where such draws are skipped, and draws an index otherwise
(R49, R51). -/
theorem sampleByteTree_of_le (p : Params) {k : Nat} (hk : k ≤ 8) :
    sampleByteTree p k =
      if p.skipSingletonByteDraw = true ∧ Nat.choose 8 k = 1 then entryTree k 0
      else .ask (indexRequest (Nat.choose 8 k)) (entryTree k) := by
  have hc := choose_eight_le hk
  have hn : (BitVec.ofNat 7 (Nat.choose 8 k)).toNat = Nat.choose 8 k := by
    rw [BitVec.toNat_ofNat]
    omega
  have hone : BitVec.ofNat 7 (Nat.choose 8 k) = 1#7 ↔ Nat.choose 8 k = 1 := by
    rw [← BitVec.toNat_inj, hn]
    rfl
  simp only [sampleByteTree, sizeRom_of_le hk, hn, Bool.and_eq_true, decide_eq_true_eq, hone]

theorem composeTree_skipsTo {c : ComposerWidth} {half half' : Nat → DrawTree}
    (hhalf : ∀ h ≤ c.half.bits, (half h).SkipsTo (half' h)) {k : Nat} (hk : k ≤ c.bits) :
    (composeTree c half k).SkipsTo (composeTree c half' k) := by
  unfold composeTree
  by_cases h0 : k = 0
  · simp only [if_pos h0]
    exact .ret 0
  by_cases hW : k = c.bits
  · simp only [if_neg h0, if_pos hW]
    exact .ret _
  simp only [if_neg h0, if_neg hW]
  refine .keep (splitRequest_rangeSize_ne_one (by omega) (by omega)) fun a ha => ?_
  obtain ⟨hhigh, hlow⟩ := half_popcounts_of_inRange hk ha
  exact (hhalf _ hhigh).andThen fun _ => (hhalf _ hlow).andThen fun _ => .ret _

section
variable {p p' : Params} (hp : p.skipSingletonByteDraw = false) (hp' : p'.skipSingletonByteDraw = true)
include hp hp'

theorem sampleByteTree_skipsTo {k : Nat} (hk : k ≤ 8) : (sampleByteTree p k).SkipsTo (sampleByteTree p' k) := by
  have entry : ∀ a : Byte, (indexRequest (Nat.choose 8 k)).inRange a = true →
      a.toNat < Nat.choose 8 k ∧ (entryTree k a.toNat).SkipsTo (entryTree k a.toNat) := fun a ha => by
    have hlt := (indexRequest_inRange_iff hk a).mp ha
    obtain ⟨b, hb, -⟩ := entryTree_of_lt hk hlt
    exact ⟨hlt, hb ▸ .ret _⟩
  rw [sampleByteTree_of_le p hk, sampleByteTree_of_le p' hk, if_neg (by simp [hp])]
  by_cases hone : Nat.choose 8 k = 1
  · rw [if_pos ⟨hp', hone⟩]
    refine .skip (by rw [indexRequest_rangeSize hk, hone]) fun a ha => ?_
    obtain ⟨hlt, hent⟩ := entry a ha
    have ha0 : a.toNat = 0 := by omega
    rwa [ha0] at hent ⊢
  · rw [if_neg fun h => hone h.2]
    exact .keep (by rwa [indexRequest_rangeSize hk]) fun a ha => (entry a ha).2

theorem sampleTree_skipsTo (w : Width) : ∀ k ≤ w.bits, (sampleTree p w k).SkipsTo (sampleTree p' w k) := by
  induction w using width_induction with
  | w8 => exact fun k hk => sampleByteTree_skipsTo hp hp' hk
  | composed c ih =>
    intro k hk
    rw [sampleTree_composed, sampleTree_composed]
    exact composeTree_skipsTo ih hk

end

/-- Settles O27: the two trees of sample(W, k) differ in the requests over one value alone, by induction on the width. -/
theorem skippingSingletonDrawsKeepsTheResult : Obligations.SkippingSingletonDrawsKeepsTheResult := by
  intro m w k as v ds hk hf
  have h := (sampleTree_skipsTo (p := { maxWidth := m, skipSingletonByteDraw := false })
    (p' := { maxWidth := m, skipSingletonByteDraw := true }) rfl rfl w k hk).follow_eq_value hf
  rwa [List.append_nil] at h

/-! ## The ROM commands respond from their operands alone -/

theorem execRomrd_eq_respond (k j : Nat) : ∃ r, ∀ s, execRomrd k j s = .next (respond r s) := by
  have cases_at (s : State) := execRomrd_cases k j s
  rcases Nat.lt_or_ge 8 k with hk | hk
  · refine ⟨.error .popcountRange, fun s => ?_⟩
    obtain ⟨-, h⟩ | ⟨hle, -⟩ | ⟨hle, -⟩ := cases_at s
    · exact h
    all_goals omega
  rcases Nat.lt_or_ge j (Nat.choose 8 k) with hj | hj
  · obtain ⟨b, hb, -⟩ := romEntry_of_lt hk hj
    refine ⟨.ok (BitVec.ofNat 128 b.toNat), fun s => ?_⟩
    obtain ⟨hgt, -⟩ | ⟨-, hge, -⟩ | ⟨-, -, b', hb', h⟩ := cases_at s
    · omega
    · omega
    · obtain rfl : b = b' := Except.ok.inj (hb.symm.trans hb')
      exact h
  · refine ⟨.error .indexRange, fun s => ?_⟩
    obtain ⟨hgt, -⟩ | ⟨-, -, h⟩ | ⟨-, hlt, -⟩ := cases_at s
    · omega
    · exact h
    · omega

theorem execRomsz_eq_respond (k : Nat) : ∃ r, ∀ s, execRomsz k s = .next (respond r s) := by
  rcases Nat.lt_or_ge 8 k with hk | hk
  · refine ⟨.error .popcountRange, fun s => ?_⟩
    obtain ⟨-, h⟩ | ⟨hle, -⟩ := execRomsz_cases k s
    · exact h
    · omega
  · refine ⟨.ok (BitVec.ofNat 128 (Nat.choose 8 k)), fun s => ?_⟩
    obtain ⟨hgt, -⟩ | ⟨-, h⟩ := execRomsz_cases k s
    · omega
    · exact h

/-! ## Two runs of one command (R10) -/

/-- From `s` to `t` and from `s'` to `t'` the block saw the same: the same inputs are left, and the same events came. -/
structure SameChannels (s s' t t' : State) : Prop where
  inputs : t'.inputs = t.inputs
  events : ∃ es, t.history = s.history ++ es ∧ t'.history = s'.history ++ es

/-- And it stands at the same place of the request. The response matters once there is one: a block that waits leaves
RSP_BUF as it found it (log 20). -/
structure SameCourse (s s' t t' : State) : Prop extends SameChannels s s' t t' where
  phase : t'.phase = t.phase
  work : t'.work = t.work
  drawOut : t'.drawOut = t.drawOut
  rspBuf : t.phase = .respond → t'.rspBuf = t.rspBuf

namespace SameChannels
variable {s s' t t' : State}

theorem start (h : s.inputs = s'.inputs) : SameChannels s s' s s' := ⟨h.symm, [], by simp⟩

theorem events_append (h : SameChannels s s' t t') (e : Event) :
    ∃ es, t.history ++ [e] = s.history ++ es ∧ t'.history ++ [e] = s'.history ++ es := by
  obtain ⟨es, ht, ht'⟩ := h.events
  exact ⟨es ++ [e], by simp [ht], by simp [ht']⟩

theorem respond (h : SameChannels s s' t t') (r : Response) :
    SameCourse s s' (Machine.respond r t) (Machine.respond r t') where
  inputs := h.inputs
  events := h.events_append _
  phase := rfl
  work := rfl
  drawOut := rfl
  rspBuf _ := rfl

theorem issueDraw (h : SameChannels s s' t t') (w : Work) (d : DrawReq) :
    SameCourse s s' (Machine.issueDraw w d t) (Machine.issueDraw w d t') where
  inputs := h.inputs
  events := h.events_append _
  phase := rfl
  work := rfl
  drawOut := rfl
  rspBuf := nofun

theorem acceptAnswer (h : SameChannels s s' t t') (v : Byte) (l : List Input) :
    SameChannels s s' (Machine.acceptAnswer v l t) (Machine.acceptAnswer v l t') where
  inputs := rfl
  events := h.events_append _

end SameChannels

/-- With the same position and the same answers to come, the pump keeps two runs together, whatever it comes to. -/
theorem pump_sameCourse (p : Params) (l : List Input) {s s' u u' t : State} {d : DrawReq} (h : SameCourse s s' u u')
    (hd : u.drawOut = some d) (ht : pump p l u = .next t) : ∃ t', pump p l u' = .next t' ∧ SameCourse s s' t t' := by
  induction l generalizing u u' d with
  | nil =>
    obtain rfl := Host.Outcome.next.inj ht
    exact ⟨u', rfl, h⟩
  | cons x l ih =>
    have hd' : u'.drawOut = some d := h.drawOut.trans hd
    obtain ⟨hx, hu⟩ | ⟨v, l, hl, ⟨hv, hu⟩ | ⟨hv, ⟨y, hc, hu⟩ | ⟨w, d', hc, hu⟩ | ⟨f, hc, hu⟩⟩⟩ := pump_cases p (x :: l) hd
    case inl =>
      obtain rfl := Host.Outcome.next.inj (hu.symm.trans ht)
      exact ⟨u', pump_other p (fun v hv => hx v l (by rw [hv])) l u', h⟩
    all_goals obtain ⟨rfl, rfl⟩ := List.cons.inj hl
    all_goals have accepted := h.toSameChannels.acceptAnswer v l
    all_goals rw [hu] at ht
    · obtain rfl := Host.Outcome.next.inj ht
      exact ⟨_, pump_outOfRange p hd' hv, accepted.respond _⟩
    · obtain rfl := Host.Outcome.next.inj ht
      exact ⟨_, pump_value p hd' hv (h.work ▸ hc), accepted.respond _⟩
    · rw [pump_draw p hd' hv (h.work ▸ hc)]
      exact ih (accepted.issueDraw w d') rfl ht
    · exact absurd ht nofun

theorem startSample_sameCourse (p : Params) (w : Width) (k : Nat) {s s' t : State} (h : s.inputs = s'.inputs)
    (ht : startSample p w k s = .next t) : ∃ t', startSample p w k s' = .next t' ∧ SameCourse s s' t t' := by
  unfold startSample at ht ⊢
  rcases hw : enter p w k [] with v | ⟨wk, d⟩ | f <;> simp only [hw] at ht ⊢
  · obtain rfl := Host.Outcome.next.inj ht
    exact ⟨_, rfl, (SameChannels.start h).respond _⟩
  · rw [← h]
    exact pump_sameCourse p s.inputs ((SameChannels.start h).issueDraw wk d) rfl ht
  · cases ht

theorem generate_sameCourse (p : Params) (w : Width) (k : Nat) {s s' t : State} (h : s.inputs = s'.inputs)
    (ht : generate p w k s = .next t) : ∃ t', generate p w k s' = .next t' ∧ SameCourse s s' t t' := by
  unfold generate at ht ⊢
  by_cases hk : popcountAbove w.bits k = true
  · rw [if_pos hk] at ht ⊢
    obtain rfl := Host.Outcome.next.inj ht
    exact ⟨_, rfl, (SameChannels.start h).respond _⟩
  · rw [if_neg hk] at ht ⊢
    exact startSample_sameCourse p w k h ht

theorem exec_sameCourse (i : Instr) {s s' t : State} (h : s.inputs = s'.inputs) (ht : exec i s = .next t) :
    ∃ t', exec i s' = .next t' ∧ SameCourse s s' t t' := by
  have responds (hr : ∃ r, ∀ s, exec i s = .next (respond r s)) : ∃ t', exec i s' = .next t' ∧ SameCourse s s' t t' := by
    obtain ⟨r, hr⟩ := hr
    obtain rfl := Host.Outcome.next.inj ((hr s).symm.trans ht)
    exact ⟨_, hr s', (SameChannels.start h).respond r⟩
  obtain ⟨w, k, -, hgen⟩ | ⟨k, j, rfl⟩ | ⟨k, rfl⟩ := exec_cases i
  · rw [hgen] at ht ⊢
    exact generate_sameCourse hardware w k h ht
  · exact responds (execRomrd_eq_respond k j)
  · exact responds (execRomsz_eq_respond k)

/-- Settles O31: two runs of one command over the same inputs keep the same course. -/
theorem commandsDependOnTheirAnswersAlone : Obligations.CommandsDependOnTheirAnswersAlone := by
  intro i s s' t hin ht
  obtain ⟨t', ht', hc⟩ := exec_sameCourse i hin ht
  obtain ⟨es, hev, hev'⟩ := hc.events
  exact ⟨t', es, ht', hc.phase, hc.work, hc.drawOut, hc.inputs, hc.rspBuf, hev, hev'⟩

end Sys2Proof.Machine

/-! PROOFS (10_state.md). The family of R12 and R17: GEN against the recursive definition, the wait for an answer, the frame of
a command, the invariant of a run, and the single steps of the block. -/

namespace Sys2Proof.Machine

/-! ## The values that sample(W, k) may return (R59) -/

theorem isSample_zero (w : Width) : isSample w 0 0 = true :=
  (isSample_iff w 0 0).mpr ⟨Nat.zero_le _, popcount_zero _, Nat.two_pow_pos _⟩

theorem isSample_allOnes (c : ComposerWidth) : isSample (.composed c) c.bits (allOnes c) = true :=
  (isSample_iff _ _ _).mpr ⟨le_rfl, popcount_ones c.bits, Nat.sub_lt (Nat.two_pow_pos _) one_pos⟩

theorem isSample_romEntry {k i : Nat} (hk : k ≤ 8) (hi : i < Nat.choose 8 k) :
    ∃ b : Byte, romEntry k i = .ok b ∧ isSample .w8 k b.toNat = true := by
  obtain ⟨b, hb, hp⟩ := romEntry_of_lt hk hi
  exact ⟨b, hb, (isSample_iff _ _ _).mpr ⟨hk, hp, b.isLt⟩⟩

theorem concatHalves_eq (c : ComposerWidth) (hv : Nat) {lv : Nat} (hlv : lv < 2 ^ c.half.bits) :
    concatHalves c hv lv = hv * 2 ^ c.half.bits + lv := by
  rw [concatHalves, ← Nat.shiftLeft_add_eq_or_of_lt hlv, Nat.shiftLeft_eq]

/-- Samples of the two halves make a sample of the whole (R57, R59). -/
theorem isSample_concatHalves {c : ComposerWidth} {k h hv lv : Nat} (hk : h ≤ k)
    (hhigh : isSample c.half h hv = true) (hlow : isSample c.half (k - h) lv = true) :
    isSample (.composed c) k (concatHalves c hv lv) = true := by
  rw [isSample_iff] at hhigh hlow
  obtain ⟨hle, hpop, hlt⟩ := hhigh
  obtain ⟨lle, lpop, llt⟩ := hlow
  have hbits : (Width.composed c).bits = c.half.bits + c.half.bits := (half_bits c).trans (two_mul _)
  rw [isSample_iff, hbits, concatHalves_eq c hv llt, popcount_concat _ _ _ _ llt, hpop, lpop, pow_add]
  refine ⟨by omega, by omega, ?_⟩
  calc hv * 2 ^ c.half.bits + lv
      < (hv + 1) * 2 ^ c.half.bits := by rw [Nat.succ_mul]; omega
    _ ≤ 2 ^ c.half.bits * 2 ^ c.half.bits := Nat.mul_le_mul_right _ hlt

/-! ## The positions that wait for a draw (R17) -/

/-- A position that waits is at the byte sampler, or at the split of its innermost frame. -/
theorem workWaitsFor_iff (w : Work) (d : DrawReq) (gw : Width) (gk : Nat) :
    workWaitsFor w d gw gk = true ↔
      (∃ fs k, w = { frames := fs, sampler := some k } ∧ k ≤ 8 ∧ d = indexRequest (Nat.choose 8 k) ∧
        framesWaitFor fs .w8 k gw gk = true) ∨
      (∃ c k fs, w = { frames := { width := c, k := k, split := none, high := none } :: fs, sampler := none } ∧
        0 < k ∧ k < c.bits ∧ d = splitRequest c k ∧ framesWaitFor fs (.composed c) k gw gk = true) := by
  obtain ⟨frames, _ | k⟩ := w
  · rcases frames with _ | ⟨⟨c, k, split, high⟩, fs⟩
    · simp [workWaitsFor]
    · constructor
      · intro h
        simp only [workWaitsFor, Bool.and_eq_true, decide_eq_true_eq] at h
        obtain ⟨⟨⟨⟨⟨rfl, rfl⟩, h0⟩, hlt⟩, hd⟩, hfs⟩ := h
        exact .inr ⟨c, k, fs, rfl, h0, hlt, hd, hfs⟩
      · rintro (⟨_, _, hw, -⟩ | ⟨_, _, _, hw, h0, hlt, rfl, hfs⟩)
        · simp at hw
        · simp only [Work.mk.injEq, List.cons.injEq, Frame.mk.injEq, and_true] at hw
          obtain ⟨⟨rfl, rfl, rfl, rfl⟩, rfl⟩ := hw
          simp [workWaitsFor, h0, hfs, hlt]
  · simp [workWaitsFor, and_assoc]

/-- How a piece of work may stand inside sample(gw, gk): a value is a sample of width `w` and popcount `k`, a draw is one that
its position waits for, and no contract is broken. -/
def Progress.Sound (w : Width) (k : Nat) (gw : Width) (gk : Nat) : Progress → Prop
  | .value v => isSample w k v = true
  | .draw wk d => workWaitsFor wk d gw gk = true
  | .stop _ => False

theorem enterByte_sound (p : Params) {k : Nat} {fs : List Frame} {gw : Width} {gk : Nat} (hk : k ≤ 8)
    (hfs : framesWaitFor fs .w8 k gw gk = true) : (enterByte p k fs).Sound .w8 k gw gk := by
  have hc := choose_eight_le hk
  obtain ⟨-, size, hs, hn⟩ | ⟨hgt, -⟩ := sizeRom_cases k
  · unfold enterByte
    rw [hs]
    dsimp only
    split
    · obtain ⟨b, hb, hsample⟩ := isSample_romEntry hk (i := 0) (by omega)
      rw [hb]
      exact hsample
    · rw [hn]
      exact (workWaitsFor_iff _ _ _ _).mpr (.inl ⟨fs, k, rfl, hk, rfl, hfs⟩)
  · omega

theorem enter_sound (p : Params) {w : Width} {k : Nat} {fs : List Frame} {gw : Width} {gk : Nat} (hk : k ≤ w.bits)
    (hfs : framesWaitFor fs w k gw gk = true) : (enter p w k fs).Sound w k gw gk := by
  cases w with
  | w8 => exact enterByte_sound p hk hfs
  | composed c =>
    unfold enter
    by_cases h0 : k = 0
    · subst h0
      exact isSample_zero _
    by_cases hW : k = c.bits
    · subst hW
      simp only [if_neg h0]
      exact isSample_allOnes c
    · simp only [if_neg h0, if_neg hW]
      have hlt : k < c.bits := lt_of_le_of_ne hk hW
      exact (workWaitsFor_iff _ _ _ _).mpr (.inr ⟨c, k, fs, rfl, Nat.pos_of_ne_zero h0, hlt, rfl, hfs⟩)

/-- The split of a waiting frame leaves each half a popcount it can have (R54). -/
theorem half_popcounts_of_split {c : ComposerWidth} {k h : Nat} (hlo : splitLo c k ≤ h)
    (hhi : h ≤ splitHi c k) : h ≤ k ∧ h ≤ c.half.bits ∧ k - h ≤ c.half.bits := by
  simp only [splitLo, splitHi] at hlo hhi
  omega

theorem feed_sound (p : Params) {fs : List Frame} {w : Width} {k v : Nat} {gw : Width} {gk : Nat}
    (hfs : framesWaitFor fs w k gw gk = true) (hv : isSample w k v = true) : (feed p v fs).Sound gw gk gw gk := by
  induction fs generalizing w k v with
  | nil =>
    simp only [framesWaitFor, Bool.and_eq_true, decide_eq_true_eq] at hfs
    obtain ⟨rfl, rfl⟩ := hfs
    exact hv
  | cons f fs ih =>
    obtain ⟨c, fk, split, high⟩ := f
    obtain ⟨rfl, h0, hlt, ⟨h, hsplit, hlo, hhi, hpart⟩, hrest⟩ := (framesWaitFor_cons _ _ _ _ _ _).mp hfs
    obtain ⟨hle, -, hlow⟩ := half_popcounts_of_split hlo hhi
    dsimp only at hsplit hpart
    subst hsplit
    obtain ⟨rfl, rfl⟩ | ⟨hv', rfl, rfl, hhigh⟩ := hpart
    · have hframe : framesWaitFor ({ width := c, k := fk, split := some k, high := some v } :: fs) c.half (fk - k) gw gk
          = true :=
        (framesWaitFor_cons _ _ _ _ _ _).mpr ⟨rfl, h0, hlt, ⟨k, rfl, hlo, hhi, .inr ⟨v, rfl, rfl, hv⟩⟩, hrest⟩
      have hlowhalf : Progress.Sound c.half (fk - k) gw gk _ := enter_sound p hlow hframe
      simp only [feed]
      generalize enter p c.half (fk - k) _ = low at hlowhalf ⊢
      rcases low with lv | ⟨wk, d⟩ | e
      · exact ih hrest (isSample_concatHalves hle hv hlowhalf)
      · exact hlowhalf
      · exact hlowhalf
    · simp only [feed]
      exact ih hrest (isSample_concatHalves hle hhigh hv)

theorem continueWith_sound (p : Params) {wk : Work} {d : DrawReq} {a : Byte} {gw : Width} {gk : Nat}
    (hw : workWaitsFor wk d gw gk = true) (ha : d.inRange a = true) :
    (continueWith p wk a.toNat).Sound gw gk gw gk := by
  obtain ⟨fs, k, rfl, hk, rfl, hfs⟩ | ⟨c, k, fs, rfl, h0, hlt, rfl, hfs⟩ := (workWaitsFor_iff _ _ _ _).mp hw
  · obtain ⟨b, hb, hsample⟩ := isSample_romEntry hk ((indexRequest_inRange_iff hk a).mp ha)
    simp only [continueWith, finishByte, hb]
    exact feed_sound p hfs hsample
  · obtain ⟨hlo, hhi⟩ := (splitRequest_inRange_iff (Nat.le_of_lt hlt) a).mp ha
    obtain ⟨-, hhigh, -⟩ := half_popcounts_of_split hlo hhi
    have hframe : framesWaitFor ({ width := c, k := k, split := some a.toNat, high := none } :: fs) c.half a.toNat gw gk
        = true :=
      (framesWaitFor_cons _ _ _ _ _ _).mpr ⟨rfl, h0, hlt, ⟨a.toNat, rfl, hlo, hhi, .inl ⟨rfl, rfl⟩⟩, hfs⟩
    have hhighhalf := enter_sound p hhigh hframe
    simp only [continueWith]
    generalize enter p c.half a.toNat _ = high at hhighhalf ⊢
    rcases high with hv | ⟨wk, d⟩ | e
    · exact feed_sound p hframe hhighhalf
    · exact hhighhalf
    · exact hhighhalf

/-! ## A piece of work run on the answers at hand -/

/-- A piece of work taken as far as the answers at hand go. -/
def Progress.run (p : Params) (s : State) : Progress → Host.Outcome State Fault Refusal
  | .value v => .next (respondValue v s)
  | .draw w d => pump p s.inputs (issueDraw w d s)
  | .stop f => .fault f

theorem startSample_eq_run (p : Params) (w : Width) (k : Nat) (s : State) :
    startSample p w k s = (enter p w k []).run p s := by
  unfold startSample Progress.run
  rcases enter p w k [] with _ | _ | _ <;> rfl

theorem generate_of_le (p : Params) {w : Width} {k : Nat} (hk : k ≤ w.bits) (s : State) :
    generate p w k s = (enter p w k []).run p s := by
  rw [generate, popcountAbove_of_le hk, ← startSample_eq_run]
  rfl

/-- An answer in range takes the work on from its position. -/
theorem pump_inRange (p : Params) {s : State} {d : DrawReq} {v : Byte} {l : List Input} (hd : s.drawOut = some d)
    (hv : d.inRange v = true) :
    pump p (.answer v :: l) s = (continueWith p s.work v.toNat).run p (acceptAnswer v l s) := by
  rcases hc : continueWith p s.work v.toNat with x | ⟨w, d'⟩ | f
  · exact pump_value p hd hv hc
  · exact pump_draw p hd hv hc
  · exact pump_stop p hd hv hc

/-- Without an answer at hand the block waits. -/
theorem pump_waits (p : Params) {l : List Input} (hl : ∀ v r, l ≠ .answer v :: r) (s : State) :
    pump p l s = .next s := by
  rcases l with _ | ⟨x, r⟩
  · exact pump_nil p s
  · exact pump_other p (fun v hx => hl v r (by rw [hx])) r s

/-! ## What a request leaves unchanged -/

/-- From `s` to `t` CUR and the model's own fields are kept, answers are taken from the front of the inputs, and the record
only grows. -/
structure RequestFrame (s t : State) : Prop where
  cur : t.cur = s.cur
  cmdIn : t.cmdIn = s.cmdIn
  resets : t.resets = s.resets
  inputs : ∃ as, s.inputs = answerInputs as ++ t.inputs
  history : ∃ es, t.history = s.history ++ es

namespace RequestFrame

theorem refl (s : State) : RequestFrame s s where
  cur := rfl
  cmdIn := rfl
  resets := rfl
  inputs := ⟨[], rfl⟩
  history := ⟨[], by simp⟩

theorem trans {s t u : State} (h : RequestFrame s t) (h' : RequestFrame t u) : RequestFrame s u where
  cur := h'.cur.trans h.cur
  cmdIn := h'.cmdIn.trans h.cmdIn
  resets := h'.resets.trans h.resets
  inputs := by
    obtain ⟨as, has⟩ := h.inputs
    obtain ⟨bs, hbs⟩ := h'.inputs
    exact ⟨as ++ bs, by simp [has, hbs, answerInputs]⟩
  history := by
    obtain ⟨es, hes⟩ := h.history
    obtain ⟨fs, hfs⟩ := h'.history
    exact ⟨es ++ fs, by simp [hes, hfs]⟩

theorem respond (r : Response) (s : State) : RequestFrame s (Machine.respond r s) where
  cur := rfl
  cmdIn := rfl
  resets := rfl
  inputs := ⟨[], rfl⟩
  history := ⟨_, rfl⟩

theorem issueDraw (w : Work) (d : DrawReq) (s : State) : RequestFrame s (Machine.issueDraw w d s) where
  cur := rfl
  cmdIn := rfl
  resets := rfl
  inputs := ⟨[], rfl⟩
  history := ⟨_, rfl⟩

theorem acceptAnswer {s : State} {v : Byte} {l : List Input} (h : s.inputs = .answer v :: l) :
    RequestFrame s (Machine.acceptAnswer v l s) where
  cur := rfl
  cmdIn := rfl
  resets := rfl
  inputs := ⟨[v], h⟩
  history := ⟨_, rfl⟩

end RequestFrame

/-- How sample(gw, gk) ends where it came to `u` without a further answer: its value, an answer out of range, or a draw. -/
inductive SampleEnds (gw : Width) (gk : Nat) (u : State) : State → Prop
  | value {v : Nat} : isSample gw gk v = true → SampleEnds gw gk u (respondValue v u)
  | outOfRange : SampleEnds gw gk u (raiseInvalidRequest .drawRange u)
  | waits {w : Work} {d : DrawReq} : workWaitsFor w d gw gk = true → SampleEnds gw gk u (issueDraw w d u)

/-- A sound piece of work ends in a next state, and only answers were taken on the way. -/
theorem Progress.Sound.run_ends (p : Params) {pr : Progress} {gw : Width} {gk : Nat} (h : pr.Sound gw gk gw gk) (s : State) :
    ∃ u t, pr.run p s = .next t ∧ RequestFrame s u ∧ u.rspBuf = s.rspBuf ∧ SampleEnds gw gk u t := by
  generalize hl : s.inputs = l
  induction l generalizing pr s with
  | nil =>
    cases pr with
    | value v => exact ⟨s, _, rfl, .refl s, rfl, .value h⟩
    | draw w d => exact ⟨s, _, by rw [Progress.run, hl, pump_nil], .refl s, rfl, .waits h⟩
    | stop f => exact h.elim
  | cons x l ih =>
    cases pr with
    | value v => exact ⟨s, _, rfl, .refl s, rfl, .value h⟩
    | stop f => exact h.elim
    | draw w d =>
      rw [Progress.run, hl]
      by_cases hx : ∃ a, x = .answer a
      · obtain ⟨a, rfl⟩ := hx
        have hframe : RequestFrame s (acceptAnswer a l (issueDraw w d s)) :=
          (RequestFrame.issueDraw w d s).trans (.acceptAnswer hl)
        rcases ha : d.inRange a with _ | _
        · exact ⟨_, _, pump_outOfRange p rfl ha, hframe, rfl, .outOfRange⟩
        · obtain ⟨u, t, hrun, hu, hrsp, hend⟩ := ih (continueWith_sound p h ha) (acceptAnswer a l (issueDraw w d s)) rfl
          exact ⟨u, t, (pump_inRange p rfl ha).trans hrun, hframe.trans hu, hrsp, hend⟩
      · exact ⟨s, _, pump_other p (fun a ha => hx ⟨a, ha⟩) l _, .refl s, rfl, .waits h⟩

theorem generate_ends (p : Params) {w : Width} {k : Nat} (hk : k ≤ w.bits) (s : State) :
    ∃ u t, generate p w k s = .next t ∧ RequestFrame s u ∧ u.rspBuf = s.rspBuf ∧ SampleEnds w k u t := by
  rw [generate_of_le p hk]
  exact (enter_sound p hk (by simp [framesWaitFor])).run_ends p s

/-! ## GEN against the recursive definition (R17, R58) -/

/-- `s` after the requests `ds` and the answers `as`, with `l` the inputs left: what the response or the next request is put
on. -/
def State.afterDraws (s : State) (ds : List DrawReq) (as : List Byte) (l : List Input) : State :=
  { s with inputs := l, history := s.history ++ drawEvents ds as }

/-- The outcome that a walk of the recursive definition over the answers `as` asks of the block in `s`, where the inputs are
those answers and then `rest`. -/
def Followed.Agrees (s : State) (as : List Byte) (rest : List Input) (o : Host.Outcome State Fault Refusal) :
    Followed → Prop
  | .value v ds unused => o = .next (respondValue v (s.afterDraws ds as (answerInputs unused ++ rest)))
  | .aborted ds unused =>
    o = .next (raiseInvalidRequest .drawRange (s.afterDraws ds as (answerInputs unused ++ rest)))
  | .waiting ds => (∀ v l, rest ≠ .answer v :: l) →
      ∃ w d, ds.getLast? = some d ∧ o = .next (issueDraw w d (s.afterDraws ds as rest))
  | .stopped f => o = .fault f

@[simp] theorem afterDraws_no_draws (s : State) (as : List Byte) : s.afterDraws [] as s.inputs = s := by
  simp [State.afterDraws, drawEvents]

@[simp] theorem afterDraws_no_answers (s : State) (ds : List DrawReq) : s.afterDraws ds [] s.inputs = s := by
  cases ds <;> simp [State.afterDraws, drawEvents]

@[simp] theorem respond_afterDraws_cons (r : Response) (s : State) (w : Work) (d : DrawReq) (a : Byte)
    (ds : List DrawReq) (as : List Byte) (l' l : List Input) :
    respond r ((acceptAnswer a l' (issueDraw w d s)).afterDraws ds as l) =
      respond r (s.afterDraws (d :: ds) (a :: as) l) := by
  simp [respond, State.afterDraws, acceptAnswer, issueDraw, drawEvents]

@[simp] theorem issueDraw_afterDraws_cons (wk : Work) (e : DrawReq) (s : State) (w : Work) (d : DrawReq) (a : Byte)
    (ds : List DrawReq) (as : List Byte) (l' l : List Input) :
    issueDraw wk e ((acceptAnswer a l' (issueDraw w d s)).afterDraws ds as l) =
      issueDraw wk e (s.afterDraws (d :: ds) (a :: as) l) := by
  simp [State.afterDraws, acceptAnswer, issueDraw, drawEvents]

/-- A request and its answer in front of a walk. -/
theorem Followed.Agrees.after {s : State} {w : Work} {d : DrawReq} {a : Byte} {as : List Byte} {l rest : List Input}
    {o : Host.Outcome State Fault Refusal} {f : Followed}
    (h : f.Agrees (acceptAnswer a l (issueDraw w d s)) as rest o) : (f.after d).Agrees s (a :: as) rest o := by
  cases f with
  | value v ds unused => simpa [Agrees, Followed.after, respondValue] using h
  | aborted ds unused => simpa [Agrees, Followed.after, raiseInvalidRequest] using h
  | waiting ds =>
    intro hrest
    obtain ⟨wk, e, hlast, ho⟩ := h hrest
    exact ⟨wk, e, by simp [List.getLast?_cons, hlast], by simpa using ho⟩
  | stopped f => exact h

theorem Followed.Agrees.outOfRange {s : State} {as : List Byte} {rest : List Input}
    (hin : s.inputs = answerInputs as ++ rest) :
    (Followed.aborted [] as).Agrees s as rest (.next (raiseInvalidRequest .drawRange s)) := by
  simp [Followed.Agrees, ← hin]

/-- A piece of work, run on the answers at hand, does what the tree it stands for does with them. -/
theorem Progress.run_agrees (p : Params) (pr : Progress) {s : State} {as : List Byte} {rest : List Input}
    (hin : s.inputs = answerInputs as ++ rest) :
    ((pr.tree p []).follow as).Agrees s as rest (pr.run p s) := by
  induction as generalizing pr s with
  | nil =>
    cases pr with
    | value v => simp [Progress.tree, plugTree, DrawTree.follow, Followed.Agrees, Progress.run, ← hin]
    | draw w d =>
      intro hrest
      have hnil : s.inputs = rest := hin
      refine ⟨w, d, rfl, ?_⟩
      rw [Progress.run, ← hnil, afterDraws_no_answers, hnil, pump_waits p hrest]
    | stop f => rfl
  | cons a as ih =>
    cases pr with
    | value v => simp [Progress.tree, plugTree, DrawTree.follow, Followed.Agrees, Progress.run, ← hin]
    | stop f => rfl
    | draw w d =>
      rw [Progress.run, hin, show answerInputs (a :: as) ++ rest = .answer a :: (answerInputs as ++ rest) from rfl]
      simp only [Progress.tree, DrawTree.follow]
      split
      case isTrue ha =>
        rw [pump_inRange p rfl ha, ← continueWith_tree]
        exact (ih _ rfl).after
      case isFalse ha =>
        rw [pump_outOfRange p rfl (by simpa using ha)]
        exact (Followed.Agrees.outOfRange rfl).after

/-- Settles O20: `enter` is the tree of sample(W, k), and a sound piece of work is never stopped. -/
theorem genRunsTheRecursiveDefinition : Obligations.GenRunsTheRecursiveDefinition := by
  intro p w k s as rest hk hin
  have hagrees := Progress.run_agrees p (enter p w k []) hin
  rw [enter_tree, ← generate_of_le p hk] at hagrees
  rw [show plugTree p [] = DrawTree.ret from rfl, andThen_ret_right] at hagrees
  generalize (sampleTree p w k).follow as = walk at hagrees ⊢
  rcases walk with ⟨v, ds, unused⟩ | ⟨ds, unused⟩ | ds | f
  · exact hagrees
  · exact hagrees
  · exact hagrees
  · obtain ⟨u, t, ht, -⟩ := generate_ends p hk s
    exact nomatch ht.symm.trans hagrees

/-! ## The wait for an answer (R17, R79) -/

/-- Where the answers end before the work does, further answers take it on from where it waits. -/
theorem Progress.run_append (p : Params) (pr : Progress) {s t : State} {as : List Byte} (hin : s.inputs = answerInputs as)
    (ht : pr.run p s = .next t) (hbusy : t.phase = .busy) (l : List Input) :
    t.drawOut.isSome = true ∧
      pr.run p { s with inputs := answerInputs as ++ l } = pump p l { t with inputs := l } := by
  induction as generalizing pr s with
  | nil =>
    cases pr with
    | value v =>
      obtain rfl := Host.Outcome.next.inj ht
      exact absurd hbusy nofun
    | draw w d =>
      rw [Progress.run, hin] at ht
      obtain rfl := Host.Outcome.next.inj ht
      exact ⟨rfl, rfl⟩
    | stop f => exact absurd ht nofun
  | cons a as ih =>
    cases pr with
    | value v =>
      obtain rfl := Host.Outcome.next.inj ht
      exact absurd hbusy nofun
    | stop f => exact absurd ht nofun
    | draw w d =>
      rw [Progress.run, hin, show answerInputs (a :: as) = .answer a :: answerInputs as from rfl] at ht
      rw [Progress.run, show answerInputs (a :: as) ++ l = .answer a :: (answerInputs as ++ l) from rfl]
      rcases ha : d.inRange a with _ | _
      · rw [pump_outOfRange p rfl ha] at ht
        obtain rfl := Host.Outcome.next.inj ht
        exact absurd hbusy nofun
      · rw [pump_inRange p rfl ha] at ht
        obtain ⟨hdraw, hrun⟩ := ih _ rfl ht
        exact ⟨hdraw, (pump_inRange p rfl ha).trans hrun⟩

/-- The step of a block that waits for the source and is answered. -/
theorem step_answer_of_waiting {s : State} {v : Byte} {l : List Input} (hp : s.phase = .busy)
    (hd : s.drawOut.isSome = true) (hin : s.inputs = .answer v :: l) : step s = pump hardware (.answer v :: l) s := by
  obtain ⟨d, hd⟩ := Option.isSome_iff_exists.mp hd
  simp [step, nextInput, canMove, takeInput, receiveAnswer, hp, hd, hin]

/-- A command that waits is a GEN within its width. -/
theorem exec_eq_run_of_busy {i : Instr} {s t : State} (ht : exec i s = .next t) (hbusy : t.phase = .busy) :
    ∃ w k, genOperands i = some (w, k) ∧ k ≤ w.bits ∧ ∀ s', exec i s' = (enter hardware w k []).run hardware s' := by
  have responds {r : Response} (h : exec i s = .next (respond r s)) : False := by
    obtain rfl := Host.Outcome.next.inj (h.symm.trans ht)
    exact absurd hbusy nofun
  obtain ⟨w, k, hops, hgen⟩ | ⟨k, j, rfl⟩ | ⟨k, rfl⟩ := exec_cases i
  · obtain ⟨-, hraise⟩ | ⟨hk, -⟩ := generate_cases hardware w k s
    · exact (responds ((hgen s).trans hraise)).elim
    · exact ⟨w, k, hops, hk, fun s' => (hgen s').trans (generate_of_le hardware hk s')⟩
  · obtain ⟨r, hr⟩ := execRomrd_eq_respond k j
    exact (responds (hr s)).elim
  · obtain ⟨r, hr⟩ := execRomsz_eq_respond k
    exact (responds (hr s)).elim

/-- Settles O46: what waits is a GEN, whose position takes the later answers as its walk would have. -/
theorem waitingDoesNotChangeTheOutcome : Obligations.WaitingDoesNotChangeTheOutcome := by
  intro i s t as bs b rest hin ht hbusy
  obtain ⟨w, k, -, -, hrun⟩ := exec_eq_run_of_busy ht hbusy
  rw [hrun] at ht
  obtain ⟨hdraw, happend⟩ := Progress.run_append hardware _ hin ht hbusy (answerInputs (b :: bs) ++ rest)
  rw [hrun, show answerInputs (as ++ b :: bs) ++ rest = answerInputs as ++ (answerInputs (b :: bs) ++ rest) by
    simp [answerInputs], happend]
  exact step_answer_of_waiting hbusy hdraw rfl

/-! ## The frame of a command (R12, R16) -/

/-- Where a command that ran from `s` leaves the block: it has responded, or it is a GEN that waits for the source. -/
def RespondsOrWaits (i : Instr) (s t : State) : Prop :=
  t.phase = .respond ∧ t.work = Work.empty ∧ t.drawOut = none ∧ t.rspBuf.isSome = true ∨
    t.phase = .busy ∧ t.drawOut.isSome = true ∧ t.rspBuf = s.rspBuf ∧ ∃ w k, genOperands i = some (w, k)

theorem exec_frame {i : Instr} {s t : State} (ht : exec i s = .next t) : RequestFrame s t ∧ RespondsOrWaits i s t := by
  have responds {r : Response} (h : exec i s = .next (respond r s)) : RequestFrame s t ∧ RespondsOrWaits i s t := by
    obtain rfl := Host.Outcome.next.inj (h.symm.trans ht)
    exact ⟨.respond r s, .inl ⟨rfl, rfl, rfl, rfl⟩⟩
  obtain ⟨w, k, hops, hgen⟩ | ⟨k, j, rfl⟩ | ⟨k, rfl⟩ := exec_cases i
  · obtain ⟨-, hraise⟩ | ⟨hk, -⟩ := generate_cases hardware w k s
    · exact responds ((hgen s).trans hraise)
    · obtain ⟨u, t', ht', hframe, hrsp, hend⟩ := generate_ends hardware hk s
      obtain rfl := Host.Outcome.next.inj ((ht'.symm.trans (hgen s).symm).trans ht)
      cases hend with
      | value _ => exact ⟨hframe.trans (.respond _ u), .inl ⟨rfl, rfl, rfl, rfl⟩⟩
      | outOfRange => exact ⟨hframe.trans (.respond _ u), .inl ⟨rfl, rfl, rfl, rfl⟩⟩
      | waits _ => exact ⟨hframe.trans (.issueDraw _ _ u), .inr ⟨rfl, rfl, hrsp, w, k, hops⟩⟩
  · obtain ⟨r, hr⟩ := execRomrd_eq_respond k j
    exact responds (hr s)
  · obtain ⟨r, hr⟩ := execRomsz_eq_respond k
    exact responds (hr s)

/-- Settles O30: a ROM command responds at once, and a GEN takes answers until it responds or waits. -/
theorem commandsChangeOnlyTheRequest : Obligations.CommandsChangeOnlyTheRequest := by
  intro i s t ht
  obtain ⟨hframe, hend⟩ := exec_frame ht
  exact ⟨hframe.cur, hframe.cmdIn, hframe.resets, hframe.inputs, hframe.history, hend⟩

/-! ## The order of checks (R72) -/

/-- The operand checks of a command: what is left of R72's list once the word decodes. -/
def operandCheck (i : Instr) : Option Reason :=
  match genOperands i, i with
  | some (w, k), _ => if w.bits < k then some .popcountRange else none
  | none, .romrd k j =>
    if 8 < k then some .popcountRange else if Nat.choose 8 k ≤ j then some .indexRange else none
  | none, .romsz k => if 8 < k then some .popcountRange else none
  | none, _ => none

theorem operandCheck_of_genOperands {i : Instr} {w : Width} {k : Nat} (h : genOperands i = some (w, k)) :
    operandCheck i = if w.bits < k then some .popcountRange else none := by
  simp [operandCheck, h]

theorem toNat_eq_zero_iff {n : Nat} (x : BitVec n) : x.toNat = 0 ↔ x = 0#n := by
  simp [← BitVec.toNat_inj]

/-- What the decoder answers is what the static check finds: the reason of an invalid word, and for a command the check of
its operands. -/
theorem staticCheck_of_decode (p : Params) (w : Word) :
    staticCheck p w =
      match decode p w with
      | .invalid e => some e
      | .instr i => operandCheck i := by
  have hfields := decode_cases p w
  simp only [staticCheck]
  rw [show w.extractLsb' 30 2 = fieldOp w from rfl, show w.extractLsb' 23 7 = fieldRsvA w from rfl,
    show w.extractLsb' 16 7 = fieldIdx w from rfl, show w.extractLsb' 11 5 = fieldRsvB w from rfl,
    show w.extractLsb' 8 3 = fieldWsel w from rfl, show w.extractLsb' 0 8 = fieldK w from rfl]
  obtain ⟨hop, hd⟩ | ⟨hop, hres, hd⟩ | ⟨ha, hb, ⟨hop, hidx, hd⟩ | ⟨hop, hws, hd⟩ | ⟨hop, hws, hidx, hd⟩⟩ := hfields
  · simp [hop, hd]
  · rw [hd]
    simp only [ne_eq, BitVec.ofNat_eq_ofNat, ← toNat_eq_zero_iff (fieldIdx w), ← toNat_eq_zero_iff (fieldWsel w)] at hres
    obtain ha | hb | ⟨hidx, hop1⟩ | ⟨hws, hop0⟩ := hres
    · simp [hop, ha]
    · simp [hop, hb]
    · obtain h | h | h | h := op_cases (fieldOp w)
      · simp [h, hidx]
      · exact absurd h hop1
      · simp [h, hidx]
      · exact absurd h hop
    · simp [hop, hop0, hws]
  · obtain ⟨i, gw, hg, hops, hbits, hsel⟩ | ⟨hsel, hg⟩ := decodeGen_cases p (fieldWsel w) (fieldK w).toNat
    · rw [hd, hg]
      have hsel' : ¬ (4 < (fieldWsel w).toNat ∨ ((fieldWsel w).toNat = 4 ∧ p.maxWidth = .w64)) := by
        rintro (hgt | ⟨heq, hmax⟩)
        · omega
        · obtain hlt | ⟨-, hmax'⟩ := hsel
          · omega
          · simp [hmax] at hmax'
      simp [ha, hb, hop, hidx, operandCheck_of_genOperands hops, hbits, hsel']
    · simp [ha, hb, hop, hidx, hd, hg, hsel]
  · simp [ha, hb, hop, hws, hd, operandCheck, genOperands]
  · simp [ha, hb, hop, hws, hidx, hd, operandCheck, genOperands]

theorem staticCheck_of_invalid {w : Word} {e : Reason} (h : decode hardware w = .invalid e) :
    staticCheck hardware w = some e := by
  rw [staticCheck_of_decode, h]

theorem staticCheck_of_instr {w : Word} {i : Instr} (h : decode hardware w = .instr i) :
    staticCheck hardware w = operandCheck i := by
  rw [staticCheck_of_decode, h]

/-! ## The responses that the rules allow (R40, R72) -/

theorem allowedResponse_of_check {w : Word} {e : Reason} (h : staticCheck hardware w = some e) :
    allowedResponse w (.error e) = true := by
  simp [allowedResponse, h]

theorem width_bits_le (w : Width) : w.bits ≤ 128 := by
  cases w with
  | w8 => decide
  | composed c =>
    have := half_bits_le c
    rw [Width.bits, half_bits]
    omega

section
variable {w : Word} {i : Instr} (hd : decode hardware w = .instr i) (hc : staticCheck hardware w = none)
include hd hc

theorem allowedResponse_sample {gw : Width} {gk v : Nat} (hops : genOperands i = some (gw, gk))
    (hv : isSample gw gk v = true) : allowedResponse w (.ok (BitVec.ofNat 128 v)) = true := by
  have hlt : v < 2 ^ 128 := by
    obtain ⟨-, -, hlt⟩ := (isSample_iff gw gk v).mp hv
    exact hlt.trans_le (Nat.pow_le_pow_right two_pos (width_bits_le gw))
  simp only [allowedResponse, hc, hd, hops, BitVec.toNat_ofNat, Nat.mod_eq_of_lt hlt, hv]

theorem allowedResponse_drawRange {gw : Width} {gk : Nat} (hops : genOperands i = some (gw, gk)) :
    allowedResponse w (.error .drawRange) = true := by
  simp [allowedResponse, hc, hd, hops]

end

/-! ## The invariant of a run (R12, R17) -/

theorem idle_wellPlaced_iff {s : State} (h : s.phase = .idle) :
    s.wellPlaced = true ↔ s.work = Work.empty ∧ s.drawOut = none ∧ s.rspBuf = none := by
  simp [State.wellPlaced, h, and_assoc]

theorem running_wellPlaced_iff {s : State} (h : s.phase = .busy) (hd : s.drawOut = none) :
    s.wellPlaced = true ↔ s.rspBuf = none ∧ s.work = Work.empty := by
  simp [State.wellPlaced, h, hd]

theorem respond_wellPlaced_iff {s : State} (h : s.phase = .respond) :
    s.wellPlaced = true ↔ s.work = Work.empty ∧ s.drawOut = none ∧
      ∃ r, s.rspBuf = some r ∧ allowedResponse s.cur r = true := by
  rcases hr : s.rspBuf with _ | r <;> simp [State.wellPlaced, h, hr, and_assoc]

/-- The word `w` is a GEN command that passes every check: sample(gw, gk) is what it runs. -/
structure Samples (w : Word) (gw : Width) (gk : Nat) : Prop where
  command : ∃ i, decode hardware w = .instr i ∧ genOperands i = some (gw, gk)
  accepted : staticCheck hardware w = none

/-- Wherever sample(gw, gk) ends, the block that runs it is well placed. -/
theorem SampleEnds.wellPlaced {gw : Width} {gk : Nat} {u t : State} (h : SampleEnds gw gk u t)
    (hcur : Samples u.cur gw gk) (hrsp : u.rspBuf = none) : t.wellPlaced = true := by
  obtain ⟨⟨i, hdec, hops⟩, hchk⟩ := hcur
  cases h with
  | value hv => exact respond_wellPlaced (allowedResponse_sample hdec hchk hops hv)
  | outOfRange => exact respond_wellPlaced (allowedResponse_drawRange hdec hchk hops)
  | waits hw => exact (wellPlaced_asking_iff rfl rfl).mpr ⟨hrsp, i, gw, gk, hchk, hdec, hops, hw⟩

/-- A command run from a block that offers no response leads to a well-placed state. -/
theorem exec_wellPlaced {s : State} {i : Instr} (hdec : decode hardware s.cur = .instr i) (hrsp : s.rspBuf = none) :
    ∃ t, exec i s = .next t ∧ t.wellPlaced = true := by
  have hchk := staticCheck_of_instr hdec
  obtain ⟨w, k, hops, hgen⟩ | ⟨k, j, rfl⟩ | ⟨k, rfl⟩ := exec_cases i
  · rw [operandCheck_of_genOperands hops] at hchk
    obtain ⟨hgt, hraise⟩ | ⟨hk, -⟩ := generate_cases hardware w k s
    · rw [if_pos hgt] at hchk
      exact ⟨_, (hgen s).trans hraise, respond_wellPlaced (allowedResponse_of_check hchk)⟩
    · rw [if_neg (Nat.not_lt.mpr hk)] at hchk
      obtain ⟨u, t, ht, hframe, hu, hend⟩ := generate_ends hardware hk s
      exact ⟨t, (hgen s).trans ht, hend.wellPlaced (hframe.cur ▸ ⟨⟨i, hdec, hops⟩, hchk⟩) (hu.trans hrsp)⟩
  · obtain ⟨hk, h⟩ | ⟨hk, hj, h⟩ | ⟨hk, hj, b, hb, h⟩ := execRomrd_cases k j s
    · exact ⟨_, h, respond_wellPlaced (allowedResponse_of_check (by simp [hchk, operandCheck, genOperands, hk]))⟩
    · exact ⟨_, h, respond_wellPlaced (allowedResponse_of_check
        (by simp [hchk, operandCheck, genOperands, Nat.not_lt.mpr hk, hj]))⟩
    · refine ⟨_, h, respond_wellPlaced ?_⟩
      simp [allowedResponse, hchk, operandCheck, genOperands, Nat.not_lt.mpr hk, Nat.not_le.mpr hj, hdec, hb]
  · obtain ⟨hk, h⟩ | ⟨hk, h⟩ := execRomsz_cases k s
    · exact ⟨_, h, respond_wellPlaced (allowedResponse_of_check (by simp [hchk, operandCheck, genOperands, hk]))⟩
    · refine ⟨_, h, respond_wellPlaced ?_⟩
      simp [allowedResponse, hchk, operandCheck, genOperands, Nat.not_lt.mpr hk, hdec]

theorem runCommand_wellPlaced {s : State} (hrsp : s.rspBuf = none) : ∃ t, runCommand s = .next t ∧ t.wellPlaced = true := by
  obtain ⟨e, hdec, hrun⟩ | ⟨i, hdec, hrun⟩ := runCommand_cases s
  · exact ⟨_, hrun, respond_wellPlaced (allowedResponse_of_check (staticCheck_of_invalid hdec))⟩
  · rw [hrun]
    exact exec_wellPlaced hdec hrsp

theorem blockMove_wellPlaced {s : State} (h : s.wellPlaced = true) : ∃ t, blockMove s = .next t ∧ t.wellPlaced = true := by
  obtain ⟨w, ws, hp, -, hmove⟩ | ⟨hp, hd, hmove⟩ | ⟨-, hmove⟩ := blockMove_cases s
  · obtain ⟨hwork, hd, hrsp⟩ := (idle_wellPlaced_iff hp).mp h
    exact ⟨_, hmove, (running_wellPlaced_iff (s := acceptCommand w ws s) rfl hd).mpr ⟨hrsp, hwork⟩⟩
  · obtain ⟨hrsp, -⟩ := (running_wellPlaced_iff hp hd).mp h
    rw [hmove]
    exact runCommand_wellPlaced hrsp
  · exact ⟨s, hmove, h⟩

/-- A draw request is outstanding only in BUSY. -/
theorem phase_of_drawOut {s : State} {d : DrawReq} (h : s.wellPlaced = true) (hd : s.drawOut = some d) : s.phase = .busy := by
  rcases hp : s.phase with _ | _ | _
  · obtain ⟨-, hnone, -⟩ := (idle_wellPlaced_iff hp).mp h
    exact nomatch hd.symm.trans hnone
  · rfl
  · obtain ⟨-, hnone, -⟩ := (respond_wellPlaced_iff hp).mp h
    exact nomatch hd.symm.trans hnone

theorem receiveAnswer_of_none {s : State} (hd : s.drawOut = none) (v : Byte) (l : List Input) :
    receiveAnswer v l s = .next { s with inputs := l } := by
  simp [receiveAnswer, hd]

theorem receiveAnswer_of_some {s : State} {d : DrawReq} (hd : s.drawOut = some d) (v : Byte) (l : List Input) :
    receiveAnswer v l s = pump hardware (.answer v :: l) s := by
  simp [receiveAnswer, hd]

/-- The answer to the outstanding request takes the command on to a well-placed state. -/
theorem receiveAnswer_wellPlaced {s : State} {v : Byte} {l : List Input} (h : s.wellPlaced = true) :
    ∃ t, receiveAnswer v l s = .next t ∧ t.wellPlaced = true := by
  rcases hd : s.drawOut with _ | d
  · exact ⟨_, receiveAnswer_of_none hd v l, h⟩
  rw [receiveAnswer_of_some hd]
  obtain ⟨hrsp, i, gw, gk, hchk, hdec, hops, hwork⟩ := (wellPlaced_asking_iff (phase_of_drawOut h hd) hd).mp h
  rcases hv : d.inRange v with _ | _
  · exact ⟨_, pump_outOfRange hardware hd hv, respond_wellPlaced (allowedResponse_drawRange hdec hchk hops)⟩
  · obtain ⟨u, t, ht, hframe, hu, hend⟩ :=
      (continueWith_sound hardware hwork hv).run_ends hardware (acceptAnswer v l s)
    exact ⟨t, (pump_inRange hardware hd hv).trans ht,
      hend.wellPlaced (hframe.cur ▸ ⟨⟨i, hdec, hops⟩, hchk⟩) (hu.trans hrsp)⟩

theorem takeResponse_wellPlaced {s : State} (h : s.wellPlaced = true) : (takeResponse s).wellPlaced = true := by
  obtain ⟨r, hp, -, htake⟩ | htake := takeResponse_cases s
  · obtain ⟨hwork, hd, -⟩ := (respond_wellPlaced_iff hp).mp h
    rw [htake]
    exact (idle_wellPlaced_iff rfl).mpr ⟨hwork, hd, rfl⟩
  · rwa [htake]

theorem applyReset_wellPlaced (s : State) : (applyReset s).wellPlaced = true :=
  (idle_wellPlaced_iff rfl).mpr ⟨rfl, rfl, rfl⟩

theorem takeInput_wellPlaced {s : State} (h : s.wellPlaced = true) : ∃ t, takeInput s = .next t ∧ t.wellPlaced = true := by
  unfold takeInput
  rcases hin : s.inputs with _ | ⟨x, l⟩
  · exact ⟨s, rfl, h⟩
  · cases x with
    | command w => exact ⟨_, rfl, h⟩
    | answer v => exact receiveAnswer_wellPlaced h
    | take => exact ⟨_, rfl, takeResponse_wellPlaced h⟩
    | reset => exact ⟨_, rfl, applyReset_wellPlaced _⟩
    | tick => exact ⟨_, rfl, h⟩

/-- Settles O48: a reset, a move of the block and an input taken each keep the invariant, which says nothing of the inputs. -/
theorem everyStepKeepsTheBlockWellPlaced : Obligations.EveryStepKeepsTheBlockWellPlaced := by
  intro s h
  obtain ⟨l, -, hstep⟩ | ⟨l, -, hstep⟩ | ⟨-, -, hstep⟩ | ⟨-, -, hstep⟩ := step_cases s
  · exact ⟨_, hstep, applyReset_wellPlaced _⟩
  · rw [hstep]
    exact blockMove_wellPlaced (s := { s with inputs := l }) h
  · rw [hstep]
    exact blockMove_wellPlaced h
  · rw [hstep]
    exact takeInput_wellPlaced h

/-- Settles O49: the block is IDLE with nothing in it, and its record is empty. -/
theorem resetIsWellPlaced : Obligations.ResetIsWellPlaced :=
  ⟨(idle_wellPlaced_iff rfl).mpr ⟨rfl, rfl, rfl⟩, rfl⟩

/-- Settles O43: these are the values that the reset state is written with. -/
theorem stateAfterReset : Obligations.StateAfterReset := ⟨rfl, rfl, rfl, rfl⟩

/-! ## The depth of WORK (R61) -/

/-- Each frame that waits doubles the width. -/
theorem bits_of_framesWaitFor {fs : List Frame} {w : Width} {k : Nat} {gw : Width} {gk : Nat}
    (h : framesWaitFor fs w k gw gk = true) : gw.bits = 2 ^ fs.length * w.bits := by
  induction fs generalizing w k with
  | nil =>
    simp only [framesWaitFor, Bool.and_eq_true, decide_eq_true_eq] at h
    obtain ⟨rfl, -⟩ := h
    simp
  | cons f fs ih =>
    obtain ⟨rfl, -, -, -, hrest⟩ := (framesWaitFor_cons _ _ _ _ _ _).mp h
    calc gw.bits = 2 ^ fs.length * f.width.bits := ih hrest
      _ = 2 ^ (f :: fs).length * f.width.half.bits := by rw [half_bits, List.length_cons]; ring

/-- The widths double from frame to frame and end at 128 or below, which bounds the number of frames (R53, R56). -/
theorem length_le_of_workWaitsFor {w : Work} {d : DrawReq} {gw : Width} {gk : Nat} (h : workWaitsFor w d gw gk = true) :
    w.frames.length ≤ 4 := by
  have hgw := width_bits_le gw
  have hpow : 2 ^ w.frames.length * 8 ≤ gw.bits := by
    obtain ⟨fs, k, rfl, -, -, hfs⟩ | ⟨c, k, fs, rfl, -, -, -, hfs⟩ := (workWaitsFor_iff _ _ _ _).mp h
    · exact (bits_of_framesWaitFor hfs).ge
    · have hhalf := half_bits_le c
      calc 2 ^ (fs.length + 1) * 8 = 2 ^ fs.length * (2 * 8) := by ring
        _ ≤ 2 ^ fs.length * c.bits := Nat.mul_le_mul_left _ (by rw [half_bits]; omega)
        _ = gw.bits := (bits_of_framesWaitFor hfs).symm
  have : 2 ^ w.frames.length ≤ 2 ^ 4 := by omega
  exact (Nat.pow_le_pow_iff_right one_lt_two).mp this

/-- Settles O51: WORK is empty but where a draw is outstanding. -/
theorem nestingIsAtMostFour : Obligations.NestingIsAtMostFour := by
  intro s h
  have empty (hw : s.work = Work.empty) : s.work.frames.length ≤ 4 := by simp [hw, Work.empty]
  rcases hp : s.phase with _ | _ | _
  · obtain ⟨hwork, -⟩ := (idle_wellPlaced_iff hp).mp h
    exact empty hwork
  · rcases hd : s.drawOut with _ | d
    · obtain ⟨-, hwork⟩ := (running_wellPlaced_iff hp hd).mp h
      exact empty hwork
    · obtain ⟨-, i, gw, gk, -, -, -, hwork⟩ := (wellPlaced_asking_iff hp hd).mp h
      exact length_le_of_workWaitsFor hwork
  · obtain ⟨hwork, -⟩ := (respond_wellPlaced_iff hp).mp h
    exact empty hwork

/-! ## The single steps of the block (R12) -/

theorem step_of_canMove {s : State} (hu : s.undisturbed = true) (hm : canMove s = true) : step s = blockMove s := by
  have hn : nextInput s = .other := of_decide_eq_true hu
  simp [step, hn, hm]

theorem blockMove_running {s : State} {i : Instr} (hp : s.phase = .busy) (hd : s.drawOut = none)
    (hdec : decode hardware s.cur = .instr i) : blockMove s = exec i s := by
  simp [blockMove, runCommand, hp, hd, hdec]

/-- Settles O38: with no draw outstanding the block's move in BUSY is to run CUR. -/
theorem stepRunsTheDecodedCommand : Obligations.StepRunsTheDecodedCommand := by
  intro s i hp hd hdec
  constructor
  · intro hu
    rw [step_of_canMove hu (by simp [canMove, hp, hd]), blockMove_running hp hd hdec]
  · intro l hin
    have htick : step s = blockMove { s with inputs := l } := by simp [step, nextInput, dropTick, hin]
    rw [htick, blockMove_running (s := { s with inputs := l }) hp hd hdec]

/-- Settles O39: a held command gives the block in IDLE its move. -/
theorem idleAcceptsTheOfferedCommand : Obligations.IdleAcceptsTheOfferedCommand := by
  intro s w ws hp hc hu
  rw [step_of_canMove hu (by simp [canMove, hp, hc])]
  simp [blockMove, acceptCommand, hp, hc]

/-- In RESPOND the block has no move of its own: it takes the next input, whatever it is, or waits. -/
theorem step_respond {s : State} (hp : s.phase = .respond) : step s = takeInput s := by
  have hm : canMove s = false := by simp [canMove, hp]
  obtain ⟨l, hin, h⟩ | ⟨l, hin, h⟩ | ⟨-, hm', -⟩ | ⟨-, -, h⟩ := step_cases s
  · rw [h, takeInput, hin]
  · rw [h, takeInput, hin]
    simp [blockMove, hp]
  · exact nomatch hm.symm.trans hm'
  · exact h

/-- Settles O41: every input but a take and a reset leaves the response where it is. -/
theorem takingTheResponseReturnsToIdle : Obligations.TakingTheResponseReturnsToIdle := by
  constructor
  · intro s r l hp hr hin
    rw [step_respond hp, takeInput, hin]
    simp [takeResponse, hp, hr]
  · intro s t r hp hr hd ht
    rw [step_respond hp, takeInput] at ht
    have offered {u : State} (hu : .next u = (.next t : Host.Outcome State Fault Refusal)) (hphase : u.phase = s.phase)
        (hrsp : u.rspBuf = s.rspBuf) (hdraw : u.drawOut = s.drawOut) (hcur : u.cur = s.cur) :
        t.phase = .respond ∧ t.rspBuf = some r ∧ t.drawOut = none ∧ t.cur = s.cur := by
      obtain rfl := Host.Outcome.next.inj hu
      exact ⟨hphase.trans hp, hrsp.trans hr, hdraw.trans hd, hcur⟩
    rcases hin : s.inputs with _ | ⟨x, l⟩
    · rw [hin] at ht
      exact .inr (.inr (offered ht rfl rfl rfl rfl))
    · rw [hin] at ht
      cases x with
      | take => exact .inl ⟨l, rfl⟩
      | reset => exact .inr (.inl (by simp [nextInput, hin]))
      | command w => exact .inr (.inr (offered ht rfl rfl rfl rfl))
      | answer v => exact .inr (.inr (offered ((receiveAnswer_of_none hd v l).symm.trans ht) rfl rfl rfl rfl))
      | tick => exact .inr (.inr (offered ht rfl rfl rfl rfl))

end Sys2Proof.Machine

/-! PROOFS (20_memory.md). The family of R21 to R24 and R33: the order of events on the channels, and the byte table. -/

namespace Sys2Proof.Machine

/-! ## The order of events on the channels (R12, R33) -/

theorem channelAfter_append (c : ChannelState) (es fs : List Event) :
    channelAfter c (es ++ fs) = (channelAfter c es).bind fun c' => channelAfter c' fs := by
  induction es generalizing c with
  | nil => rfl
  | cons e es ih =>
    simp only [List.cons_append, channelAfter]
    rcases channelStep c e with _ | c'
    · rfl
    · exact ih c'

/-- Once its request is answered the command runs on. -/
theorem acceptAnswer_channel {s : State} (hp : s.phase = .busy) (v : Byte) (l : List Input) :
    (acceptAnswer v l s).channel = .running s.cur := by
  simp [State.channel, hp]

/-- From `s` to `t` the record only grew, by events in the order that R12 and R33 allow, which led the channels from where `s`
has them to where `t` has them. -/
def ChannelRun (s t : State) : Prop :=
  ∃ es, t.history = s.history ++ es ∧ channelAfter s.channel es = some t.channel

namespace ChannelRun
variable {s t u : State}

/-- What the channels do not see. -/
theorem silent (hhist : t.history = s.history) (hchan : t.channel = s.channel) : ChannelRun s t :=
  ⟨[], by simp [hhist], by rw [hchan]; rfl⟩

theorem event {e : Event} (hhist : t.history = s.history ++ [e]) (hchan : channelStep s.channel e = some t.channel) :
    ChannelRun s t :=
  ⟨[e], hhist, by simp [channelAfter, hchan]⟩

theorem trans (h : ChannelRun s t) (h' : ChannelRun t u) : ChannelRun s u := by
  obtain ⟨es, hes, hst⟩ := h
  obtain ⟨fs, hfs, htu⟩ := h'
  exact ⟨es ++ fs, by simp [hes, hfs], by rw [channelAfter_append, hst]; exact htu⟩

/-- A run to the one state that a move of the block can answer. -/
theorem of_next (hu : .next u = (.next t : Host.Outcome State Fault Refusal)) (h : ChannelRun s u) : ChannelRun s t :=
  Host.Outcome.next.inj hu ▸ h

theorem historyFits (h : ChannelRun s t) (hs : s.historyFits = true) : t.historyFits = true := by
  obtain ⟨es, hes, hst⟩ := h
  have hfit : channelAfter .idle s.history = some s.channel := of_decide_eq_true hs
  exact decide_eq_true (by rw [hes, channelAfter_append, hfit]; exact hst)

/-! ### One event for each operation on the channels -/

theorem respond (hrun : s.channel = .running s.cur) (r : Response) : ChannelRun s (Machine.respond r s) :=
  event rfl (by rw [hrun]; rfl)

theorem issueDraw (hrun : s.channel = .running s.cur) (w : Work) (d : DrawReq) :
    ChannelRun s (Machine.issueDraw w d s) :=
  event rfl (by rw [hrun]; rfl)

theorem acceptAnswer {d : DrawReq} (hp : s.phase = .busy) (hd : s.drawOut = some d) (v : Byte) (l : List Input) :
    ChannelRun s (Machine.acceptAnswer v l s) :=
  event rfl (by rw [acceptAnswer_channel hp]; simp [State.channel, channelStep, hp, hd])

theorem acceptCommand (hp : s.phase = .idle) (hd : s.drawOut = none) (w : Word) (ws : List Word) :
    ChannelRun s (Machine.acceptCommand w ws s) :=
  event rfl (by simp [State.channel, channelStep, hp, hd])

theorem takeResponse (s : State) : ChannelRun s (Machine.takeResponse s) := by
  obtain ⟨r, hp, hr, htake⟩ | htake := takeResponse_cases s
  · rw [htake]
    exact event rfl (by simp [State.channel, channelStep, hp, hr])
  · rw [htake]
    exact silent rfl rfl

theorem applyReset (s : State) : ChannelRun s (Machine.applyReset s) :=
  event rfl (by cases s.channel <;> rfl)

end ChannelRun

/-! ### The block's moves and the inputs it takes -/

/-- Each answer is followed by one response or one further request, until the answers end (R33 b). -/
theorem channelRun_of_pump (p : Params) (l : List Input) {s t : State} {d : DrawReq} (hp : s.phase = .busy)
    (hd : s.drawOut = some d) (ht : pump p l s = .next t) : ChannelRun s t := by
  induction l generalizing s d with
  | nil => exact .of_next ht (.silent rfl rfl)
  | cons x l ih =>
    have answered (v : Byte) : ChannelRun s (acceptAnswer v l s) := .acceptAnswer hp hd v l
    have running (v : Byte) : (acceptAnswer v l s).channel = .running s.cur := acceptAnswer_channel hp v l
    obtain ⟨-, hpump⟩ | ⟨v, r, hl, ⟨-, hpump⟩ | ⟨-, ⟨y, -, hpump⟩ | ⟨w, d', -, hpump⟩ | ⟨f, -, hpump⟩⟩⟩ :=
      pump_cases p (x :: l) hd
    case inl => exact .of_next (hpump.symm.trans ht) (.silent rfl rfl)
    all_goals obtain ⟨rfl, rfl⟩ := List.cons.inj hl
    all_goals rw [hpump] at ht
    · exact .of_next ht ((answered v).trans (.respond (running v) _))
    · exact .of_next ht ((answered v).trans (.respond (running v) _))
    · exact ((answered v).trans (.issueDraw (running v) w d')).trans (ih rfl rfl ht)
    · exact absurd ht nofun

theorem channelRun_of_startSample (p : Params) (w : Width) (k : Nat) {s t : State} (hrun : s.channel = .running s.cur)
    (ht : startSample p w k s = .next t) : ChannelRun s t := by
  obtain ⟨v, -, h⟩ | ⟨wk, d, -, h⟩ | ⟨f, -, h⟩ := startSample_cases p w k s
  all_goals rw [h] at ht
  · exact .of_next ht (.respond hrun _)
  · exact (ChannelRun.issueDraw hrun wk d).trans (channelRun_of_pump p s.inputs rfl rfl ht)
  · exact absurd ht nofun

theorem channelRun_of_exec {i : Instr} {s t : State} (hrun : s.channel = .running s.cur) (ht : exec i s = .next t) :
    ChannelRun s t := by
  have responds {r : Response} (h : exec i s = .next (respond r s)) : ChannelRun s t :=
    .of_next (h.symm.trans ht) (.respond hrun r)
  obtain ⟨w, k, -, hgen⟩ | ⟨k, j, rfl⟩ | ⟨k, rfl⟩ := exec_cases i
  · obtain ⟨-, hraise⟩ | ⟨-, hstart⟩ := generate_cases hardware w k s
    · exact responds ((hgen s).trans hraise)
    · exact channelRun_of_startSample hardware w k hrun ((hstart.symm.trans (hgen s).symm).trans ht)
  · obtain ⟨r, hr⟩ := execRomrd_eq_respond k j
    exact responds (hr s)
  · obtain ⟨r, hr⟩ := execRomsz_eq_respond k
    exact responds (hr s)

theorem channelRun_of_runCommand {s t : State} (hrun : s.channel = .running s.cur) (ht : runCommand s = .next t) :
    ChannelRun s t := by
  obtain ⟨e, -, h⟩ | ⟨i, -, h⟩ := runCommand_cases s
  · exact .of_next (h.symm.trans ht) (.respond hrun _)
  · exact channelRun_of_exec hrun (h.symm.trans ht)

theorem channelRun_of_blockMove {s t : State} (hs : s.wellPlaced = true) (ht : blockMove s = .next t) :
    ChannelRun s t := by
  obtain ⟨w, ws, hp, -, h⟩ | ⟨hp, hd, h⟩ | ⟨-, h⟩ := blockMove_cases s
  all_goals rw [h] at ht
  · obtain ⟨-, hd, -⟩ := (idle_wellPlaced_iff hp).mp hs
    exact .of_next ht (.acceptCommand hp hd w ws)
  · exact channelRun_of_runCommand (by simp [State.channel, hp, hd]) ht
  · exact .of_next ht (.silent rfl rfl)

/-- An answer is seen on the channels only where a request is outstanding (R83). -/
theorem channelRun_of_receiveAnswer {s t : State} {v : Byte} {l : List Input} (hs : s.wellPlaced = true)
    (ht : receiveAnswer v l s = .next t) : ChannelRun s t := by
  rcases hd : s.drawOut with _ | d
  · exact .of_next ((receiveAnswer_of_none hd v l).symm.trans ht) (.silent rfl rfl)
  · exact channelRun_of_pump hardware _ (phase_of_drawOut hs hd) hd ((receiveAnswer_of_some hd v l).symm.trans ht)

theorem channelRun_of_takeInput {s t : State} (hs : s.wellPlaced = true) (ht : takeInput s = .next t) :
    ChannelRun s t := by
  unfold takeInput at ht
  rcases hin : s.inputs with _ | ⟨x, l⟩
  all_goals rw [hin] at ht
  case nil => exact .of_next ht (.silent rfl rfl)
  cases x with
  | answer v => exact channelRun_of_receiveAnswer hs ht
  | command w => exact .of_next ht (.silent rfl rfl)
  | take => exact .of_next ht (.takeResponse { s with inputs := l })
  | reset => exact .of_next ht (.applyReset { s with inputs := l })
  | tick => exact .of_next ht (.silent rfl rfl)

theorem channelRun_of_step {s t : State} (hs : s.wellPlaced = true) (ht : step s = .next t) : ChannelRun s t := by
  obtain ⟨l, -, h⟩ | ⟨l, -, h⟩ | ⟨-, -, h⟩ | ⟨-, -, h⟩ := step_cases s
  all_goals rw [h] at ht
  · exact .of_next ht (.applyReset { s with inputs := l })
  · exact channelRun_of_blockMove (s := { s with inputs := l }) hs ht
  · exact channelRun_of_blockMove hs ht
  · exact channelRun_of_takeInput hs ht

/-- Settles O50: each operation on the channels is one event that is due where the channels stand, and a step is a run of
such operations. -/
theorem everyStepKeepsTheChannelOrder : Obligations.EveryStepKeepsTheChannelOrder := by
  intro s t hs hfits ht
  obtain ⟨es, hes, hst⟩ := channelRun_of_step hs ht
  exact ⟨ChannelRun.historyFits ⟨es, hes, hst⟩ hfits, es, hes⟩

end Sys2Proof.Machine

namespace Sys2Proof

/-- C(m,k) of the `m`-bit values have popcount `k`: those with the upper bit clear and those with it set (R22). -/
theorem length_filter_popcount (m k : Nat) :
    ((List.range (2 ^ m)).filter (fun v => popcount m v = k)).length = Nat.choose m k := by
  induction m generalizing k with
  | zero => cases k <;> simp [popcount]
  | succ m ih =>
    have halves : List.range (2 ^ (m + 1)) = List.range (2 ^ m) ++ (List.range (2 ^ m)).map (2 ^ m + ·) := by
      rw [← List.range_add, ← two_mul, pow_succ']
    have bitClear : (List.range (2 ^ m)).filter (fun v => popcount (m + 1) v = k) =
        (List.range (2 ^ m)).filter (fun v => popcount m v = k) :=
      List.filter_congr fun v hv => by
        have h : popcount (m + 1) v = popcount m v := by
          simpa [popcount] using popcount_concat 1 m 0 v (List.mem_range.mp hv)
        rw [h]
    have bitSet : (List.range (2 ^ m)).filter (fun v => popcount (m + 1) (2 ^ m + v) = k) =
        (List.range (2 ^ m)).filter (fun v => popcount m v + 1 = k) :=
      List.filter_congr fun v hv => by
        have h := popcount_concat 1 m 1 v (List.mem_range.mp hv)
        rw [one_mul, show popcount 1 1 = 1 from rfl] at h
        rw [h]
    rw [halves, List.filter_append, List.length_append, bitClear, ih, List.filter_map, List.length_map]
    simp only [Function.comp_def, bitSet]
    cases k with
    | zero => simp
    | succ k =>
      simp only [Nat.add_right_cancel_iff, ih, Nat.choose_succ_succ']
      exact Nat.add_comm _ _

end Sys2Proof

namespace Sys2Proof.Machine

/-! ## The byte table (R20 to R24) -/

/-- R21's Σ_{j<k} C(8,j), entry by entry. -/
theorem offsetRom_of_le {k : Nat} (hk : k ≤ 8) :
    (offsetRom k).map BitVec.toNat = some ((List.range k).map (Nat.choose 8)).sum := by
  interval_cases k <;> rfl

/-- The bytes that stand in bucket k of POP_ROM, checked against R23's listing: those of popcount k, ascending. -/
theorem lookup_of_le {k : Nat} (hk : k ≤ 8) :
    ∃ l, lookup k = some l ∧ l.map BitVec.toNat = (List.range 256).filter (fun v => popcount 8 v = k) := by
  have listing : ∀ k < 9, (lookup k).map (List.map BitVec.toNat) =
      some ((List.range 256).filter (fun v => popcount 8 v = k)) := by decide +kernel
  exact Option.map_eq_some_iff.mp (listing k (by omega))

/-- Settles O8: the sizes and offsets are the tables' entries, and each bucket is read as lookup reads it. -/
theorem romIsLaidOutBucketByBucket : Obligations.RomIsLaidOutBucketByBucket := by
  intro k hk
  refine ⟨offsetRom_of_le hk, ?_, ?_⟩
  · obtain ⟨-, size, hsize, hn⟩ | ⟨hgt, -⟩ := sizeRom_cases k
    · rw [hsize, Option.map_some, hn]
    · omega
  · obtain ⟨l, hl, hbytes⟩ := lookup_of_le hk
    rw [hl, Option.map_some, hbytes]

theorem sizeRomTable_toNat : sizeRomTable.map BitVec.toNat = (List.range 9).map (Nat.choose 8) := by decide

/-- Settles O9: the sum is the binomial theorem's 2^8, and each size is a C(8,k). -/
theorem sizesAreTheBinomials : Obligations.SizesAreTheBinomials := by
  have sum : (sizeRomTable.map BitVec.toNat).sum = 2 ^ 8 := by
    rw [sizeRomTable_toNat]
    exact Nat.sum_range_choose 8
  have largest : ∀ x ∈ sizeRomTable, x.toNat ≤ 70 := fun x hx => by
    have hmem := List.mem_map_of_mem (f := BitVec.toNat) hx
    rw [sizeRomTable_toNat] at hmem
    obtain ⟨k, hk, hx⟩ := List.mem_map.mp hmem
    have hle := choose_eight_le (Nat.le_of_lt_succ (List.mem_range.mp hk))
    omega
  have bounded : ∀ x ∈ offsetRomTable, x.toNat ≤ 255 := fun x _ => Nat.le_of_lt_succ x.isLt
  exact ⟨by decide, sizeRomTable_toNat, sum, largest, by decide, bounded, by decide⟩

theorem mem_popRom_of_mem_lookup {k : Nat} {l : List Byte} {b : Byte} (hl : lookup k = some l) (hb : b ∈ l) :
    b ∈ popRom := by
  unfold lookup at hl
  split at hl
  · obtain rfl := Option.some.inj hl
    exact List.mem_of_mem_drop (List.mem_of_mem_take hb)
  · exact absurd hl nofun

theorem popRom_length : popRom.length = 256 := by decide +kernel

/-- Every byte stands in the bucket of its popcount. -/
theorem ofNat_mem_popRom {n : Nat} (hn : n < 256) : BitVec.ofNat 8 n ∈ popRom := by
  obtain ⟨l, hl, hbytes⟩ := lookup_of_le (popcount_le 8 n)
  have hmem : n ∈ l.map BitVec.toNat := by
    rw [hbytes]
    simpa using hn
  obtain ⟨b, hb, rfl⟩ := List.mem_map.mp hmem
  rw [BitVec.ofNat_toNat, BitVec.setWidth_eq]
  exact mem_popRom_of_mem_lookup hl hb

/-- The 256 bytes all stand in the 256 entries, so no entry repeats another. -/
theorem popRom_nodup : popRom.Nodup := by
  have bytes : ((List.range 256).map (BitVec.ofNat 8)).Nodup :=
    List.nodup_range.map_on fun m hm n hn h => by
      have := congrArg BitVec.toNat h
      simp only [List.mem_range, BitVec.toNat_ofNat] at hm hn this
      omega
  have held : (List.range 256).map (BitVec.ofNat 8) ⊆ popRom := fun b hb => by
    obtain ⟨n, hn, rfl⟩ := List.mem_map.mp hb
    exact ofNat_mem_popRom (List.mem_range.mp hn)
  have perm := (List.subperm_of_subset bytes held).perm_of_length_le (by simp [popRom_length])
  exact perm.nodup_iff.mp bytes

/-- Settles O10: what a bucket holds is said by the list of its values, and POP_ROM has room for each byte once. -/
theorem romIsAPermutationByPopcount : Obligations.RomIsAPermutationByPopcount := by
  refine ⟨fun k hk => ?_, popRom_length, popRom_nodup, fun n hn => ofNat_mem_popRom hn⟩
  obtain ⟨l, hl, hbytes⟩ := lookup_of_le hk
  refine ⟨l, hl, ?_, fun b hb => ?_, ?_⟩
  · calc l.length = (l.map BitVec.toNat).length := (List.length_map _).symm
      _ = Nat.choose 8 k := by rw [hbytes]; exact length_filter_popcount 8 k
  · have hmem := List.mem_map_of_mem (f := BitVec.toNat) hb
    rw [hbytes] at hmem
    simpa using (List.mem_filter.mp hmem).2
  · have ascending : (l.map BitVec.toNat).Pairwise (· < ·) := hbytes ▸ List.pairwise_lt_range.filter _
    exact List.pairwise_map.mp ascending

end Sys2Proof.Machine

/-! PROOFS (30_encoding.md). The family of R34 to R45: the decoder against the encoder and the opcode map, the assembler, and
STATUS (R40, R70). -/

namespace Sys2Proof

open Machine

/-! ## The operands of a well-formed command (R37, R38) -/

theorem fitsK_iff (k : Nat) : fitsK k = true ↔ k ≤ 255 := by simp [fitsK]

theorem fitsIdx_iff (i : Nat) : fitsIdx i = true ↔ i ≤ 127 := by simp [fitsIdx]

theorem hasW128_iff (p : Params) : hasW128 p = true ↔ p.maxWidth = .w128 := by simp [hasW128]

theorem toNat_ofNat_of_fitsK {k : Nat} (h : fitsK k = true) : (BitVec.ofNat 8 k).toNat = k := by
  rw [BitVec.toNat_ofNat, Nat.mod_eq_of_lt (Nat.lt_succ_of_le ((fitsK_iff k).mp h))]

theorem toNat_ofNat_of_fitsIdx {i : Nat} (h : fitsIdx i = true) : (BitVec.ofNat 7 i).toNat = i := by
  rw [BitVec.toNat_ofNat, Nat.mod_eq_of_lt (Nat.lt_succ_of_le ((fitsIdx_iff i).mp h))]

theorem fitsK_fieldK (w : Word) : fitsK (fieldK w).toNat = true :=
  (fitsK_iff _).mpr (Nat.le_of_lt_succ (fieldK w).isLt)

theorem fitsIdx_fieldIdx (w : Word) : fitsIdx (fieldIdx w).toNat = true :=
  (fitsIdx_iff _).mpr (Nat.le_of_lt_succ (fieldIdx w).isLt)

/-! ## The decoder, one equation for each OP (R35 to R39) -/

theorem decode_of_gen_fields (p : Params) {w : Word} (hop : fieldOp w = 0b00#2) (ha : fieldRsvA w = 0)
    (hb : fieldRsvB w = 0) (hidx : fieldIdx w = 0) : decode p w = decodeGen p (fieldWsel w) (fieldK w).toNat := by
  simp [decode, hop, ha, hb, hidx]

theorem decode_of_romrd_fields (p : Params) {w : Word} (hop : fieldOp w = 0b01#2) (ha : fieldRsvA w = 0)
    (hb : fieldRsvB w = 0) (hws : fieldWsel w = 0) :
    decode p w = .instr (.romrd (fieldK w).toNat (fieldIdx w).toNat) := by
  simp [decode, hop, ha, hb, hws]

theorem decode_of_romsz_fields (p : Params) {w : Word} (hop : fieldOp w = 0b10#2) (ha : fieldRsvA w = 0)
    (hb : fieldRsvB w = 0) (hws : fieldWsel w = 0) (hidx : fieldIdx w = 0) :
    decode p w = .instr (.romsz (fieldK w).toNat) := by
  simp [decode, hop, ha, hb, hws, hidx]

/-! ## Decoding what was encoded (R34, R42) -/

theorem decode_assembled_gen (p : Params) (ws : BitVec 3) {k : Nat} (hk : fitsK k = true) :
    decode p (assembleFields 0b00 0 ws (BitVec.ofNat 8 k)) = decodeGen p ws k := by
  obtain ⟨hop, ha, hidx, hb, hws, hfk⟩ := fields_of_assembleFields 0b00 0 ws (BitVec.ofNat 8 k)
  rw [decode_of_gen_fields p hop ha hb hidx, hws, hfk, toNat_ofNat_of_fitsK hk]

theorem decode_assembled_romrd (p : Params) {k i : Nat} (hk : fitsK k = true) (hi : fitsIdx i = true) :
    decode p (assembleFields 0b01 (BitVec.ofNat 7 i) 0 (BitVec.ofNat 8 k)) = .instr (.romrd k i) := by
  obtain ⟨hop, ha, hidx, hb, hws, hfk⟩ := fields_of_assembleFields 0b01 (BitVec.ofNat 7 i) 0 (BitVec.ofNat 8 k)
  rw [decode_of_romrd_fields p hop ha hb hws, hidx, hfk, toNat_ofNat_of_fitsK hk, toNat_ofNat_of_fitsIdx hi]

theorem decode_assembled_romsz (p : Params) {k : Nat} (hk : fitsK k = true) :
    decode p (assembleFields 0b10 0 0 (BitVec.ofNat 8 k)) = .instr (.romsz k) := by
  obtain ⟨hop, ha, hidx, hb, hws, hfk⟩ := fields_of_assembleFields 0b10 0 0 (BitVec.ofNat 8 k)
  rw [decode_of_romsz_fields p hop ha hb hws hidx, hfk, toNat_ofNat_of_fitsK hk]

/-- WSEL = 100 selects GEN.W128 where the build has it (R36, R67). -/
theorem decodeGen_w128 {p : Params} (h : hasW128 p = true) (k : Nat) : decodeGen p 0b100#3 k = .instr (.genW128 k) := by
  simp [decodeGen, (hasW128_iff p).mp h]

/-- Settles O1: the fields of an assembled word are the ones it was assembled from, and the decoder reads only them. -/
theorem encodedCommandsDecodeBack : Obligations.EncodedCommandsDecodeBack := by
  intro p i h
  cases i with
  | genW8 k => exact decode_assembled_gen p 0b000 h
  | genW16 k => exact decode_assembled_gen p 0b001 h
  | genW32 k => exact decode_assembled_gen p 0b010 h
  | genW64 k => exact decode_assembled_gen p 0b011 h
  | genW128 k =>
    obtain ⟨hmax, hk⟩ := Bool.and_eq_true_iff.mp h
    exact (decode_assembled_gen p 0b100 hk).trans (decodeGen_w128 hmax k)
  | romrd k i =>
    obtain ⟨hk, hi⟩ := Bool.and_eq_true_iff.mp h
    exact decode_assembled_romrd p hk hi
  | romsz k => exact decode_assembled_romsz p h

/-! ## Encoding what was decoded (R39, R44) -/

/-- The command that WSEL selects is encoded with that WSEL, and is well formed when its operand is. -/
theorem encode_of_decodeGen {p : Params} {ws : BitVec 3} {k : Nat} {i : Instr} (h : decodeGen p ws k = .instr i) :
    encode i = assembleFields 0b00 0 ws (BitVec.ofNat 8 k) ∧ WellFormed p i = fitsK k := by
  rcases p with ⟨m, b⟩
  rcases wsel_cases ws with rfl | rfl | rfl | rfl | rfl | rfl | rfl | rfl
  iterate 4
    · cases h
      exact ⟨rfl, rfl⟩
  · cases m with
    | w64 => cases h
    | w128 =>
      cases h
      exact ⟨rfl, Bool.true_and _⟩
  all_goals cases h

/-- Settles O2: a word that decodes has zero reserved fields, so it is put together from the fields that the decoder read. -/
theorem decodedWordsAreTheirEncodings : Obligations.DecodedWordsAreTheirEncodings := by
  intro p w i h
  obtain ⟨-, hd⟩ | ⟨-, -, hd⟩ | ⟨ha, hb, ⟨hop, hidx, hd⟩ | ⟨hop, hws, hd⟩ | ⟨hop, hws, hidx, hd⟩⟩ := decode_cases p w
  · cases hd.symm.trans h
  · cases hd.symm.trans h
  all_goals
    have hw := assembleFields_of_fields w ha hb
  · obtain ⟨henc, hwf⟩ := encode_of_decodeGen (hd.symm.trans h)
    rw [hop, hidx] at hw
    rw [BitVec.ofNat_toNat, BitVec.setWidth_eq] at henc
    exact ⟨henc.trans hw, hwf.trans (fitsK_fieldK w)⟩
  · cases hd.symm.trans h
    rw [hop, hws] at hw
    exact ⟨by simpa [encode] using hw, Bool.and_eq_true_iff.mpr ⟨fitsK_fieldK w, fitsIdx_fieldIdx w⟩⟩
  · cases hd.symm.trans h
    rw [hop, hws, hidx] at hw
    exact ⟨by simpa [encode] using hw, fitsK_fieldK w⟩

/-! ## The opcode map (R42) -/

/-- Masking a word masks each of its fields. -/
theorem fields_of_and (w m : Word) :
    fieldOp (w &&& m) = fieldOp w &&& fieldOp m ∧ fieldRsvA (w &&& m) = fieldRsvA w &&& fieldRsvA m ∧
      fieldIdx (w &&& m) = fieldIdx w &&& fieldIdx m ∧ fieldRsvB (w &&& m) = fieldRsvB w &&& fieldRsvB m ∧
      fieldWsel (w &&& m) = fieldWsel w &&& fieldWsel m :=
  ⟨BitVec.extractLsb'_and, BitVec.extractLsb'_and, BitVec.extractLsb'_and, BitVec.extractLsb'_and,
    BitVec.extractLsb'_and⟩

/-- Every row of the map fixes OP and WSEL, and asks for zero reserved fields. -/
theorem row_fields : ∀ r ∈ opcodeMap,
    fieldOp r.mask = BitVec.allOnes 2 ∧ fieldWsel r.mask = BitVec.allOnes 3 ∧
      fieldRsvA r.mask = BitVec.allOnes 7 ∧ fieldRsvA r.pattern = 0 ∧
      fieldRsvB r.mask = BitVec.allOnes 5 ∧ fieldRsvB r.pattern = 0 := by decide

/-- The fields of a word that a row of the map accepts. -/
theorem fields_of_accepts {r : OpcodeRow} (hr : r ∈ opcodeMap) {w : Word} (h : r.accepts w = true) :
    fieldOp w = fieldOp r.pattern ∧ fieldRsvA w = 0 ∧ fieldIdx w &&& fieldIdx r.mask = fieldIdx r.pattern ∧
      fieldRsvB w = 0 ∧ fieldWsel w = fieldWsel r.pattern := by
  obtain ⟨hmop, hmws, hma, hpa, hmb, hpb⟩ := row_fields r hr
  obtain ⟨hop, ha, hidx, hb, hws⟩ := fields_of_and w r.mask
  rw [show w &&& r.mask = r.pattern from of_decide_eq_true h] at hop ha hidx hb hws
  rw [hmop, BitVec.and_allOnes] at hop
  rw [hma, hpa, BitVec.and_allOnes] at ha
  rw [hmb, hpb, BitVec.and_allOnes] at hb
  rw [hmws, BitVec.and_allOnes] at hws
  exact ⟨hop.symm, ha.symm, hidx.symm, hb.symm, hws.symm⟩

/-- A word that a row accepts decodes to a command of that row. -/
theorem decode_of_accepts {r : OpcodeRow} (hr : r ∈ opcodeMap) {w : Word} (h : r.accepts w = true) :
    ∃ i, decode hardware w = .instr i ∧ rowOf i = r := by
  obtain ⟨hop, ha, hidx, hb, hws⟩ := fields_of_accepts hr h
  have gen (hop : fieldOp w = 0b00#2) (hidx : fieldIdx w &&& BitVec.allOnes 7 = 0) :
      decode hardware w = decodeGen hardware (fieldWsel w) (fieldK w).toNat :=
    decode_of_gen_fields hardware hop ha hb (BitVec.and_allOnes.symm.trans hidx)
  simp only [opcodeMap, List.mem_cons, List.not_mem_nil, or_false] at hr
  obtain rfl | rfl | rfl | rfl | rfl | rfl | rfl := hr
  · exact ⟨.genW8 (fieldK w).toNat, by rw [gen hop hidx, hws]; rfl, rfl⟩
  · exact ⟨.genW16 (fieldK w).toNat, by rw [gen hop hidx, hws]; rfl, rfl⟩
  · exact ⟨.genW32 (fieldK w).toNat, by rw [gen hop hidx, hws]; rfl, rfl⟩
  · exact ⟨.genW64 (fieldK w).toNat, by rw [gen hop hidx, hws]; rfl, rfl⟩
  · exact ⟨.genW128 (fieldK w).toNat, by rw [gen hop hidx, hws]; rfl, rfl⟩
  · exact ⟨_, decode_of_romrd_fields hardware hop ha hb hws, rfl⟩
  · exact ⟨_, decode_of_romsz_fields hardware hop ha hb hws (BitVec.and_allOnes.symm.trans hidx), rfl⟩

theorem rowOf_mem_opcodeMap (i : Instr) : rowOf i ∈ opcodeMap := by
  cases i <;> simp [rowOf, opcodeMap]

/-- The row of a command accepts the command's encoding (R42). -/
theorem rowOf_accepts_encode (i : Instr) : (rowOf i).accepts (encode i) = true := by
  cases i with
  | genW8 k => exact Laws.RowPattern.genW8 k
  | genW16 k => exact Laws.RowPattern.genW16 k
  | genW32 k => exact Laws.RowPattern.genW32 k
  | genW64 k => exact Laws.RowPattern.genW64 k
  | genW128 k => exact Laws.RowPattern.genW128 k
  | romrd k i => exact Laws.RowPattern.romrd k i
  | romsz k => exact Laws.RowPattern.romsz k

/-- A word that decodes is accepted by the row of its command, since it is that command's encoding. -/
theorem rowOf_accepts_of_decode {w : Word} {i : Instr} (h : decode hardware w = .instr i) :
    (rowOf i).accepts w = true := by
  obtain ⟨henc, -⟩ := decodedWordsAreTheirEncodings hardware w i h
  exact henc ▸ rowOf_accepts_encode i

/-- Settles O3: a row that accepts a word is the row of the command it decodes to, so no word has two. -/
theorem decoderFollowsTheOpcodeMap : Obligations.DecoderFollowsTheOpcodeMap := by
  refine ⟨fun w r hr => ⟨decode_of_accepts hr, ?_⟩, fun w => ⟨fun hnone => ?_, ?_⟩, fun w r r' hr hr' h h' => ?_⟩
  · rintro ⟨i, hd, rfl⟩
    exact rowOf_accepts_of_decode hd
  · cases hd : decode hardware w with
    | invalid e => exact ⟨e, rfl⟩
    | instr i => exact absurd (rowOf_accepts_of_decode hd) (by simp [hnone _ (rowOf_mem_opcodeMap i)])
  · rintro ⟨e, hd⟩ r hr
    refine Bool.eq_false_iff.mpr fun h => ?_
    obtain ⟨i, hi, -⟩ := decode_of_accepts hr h
    cases hd.symm.trans hi
  · obtain ⟨i, hi, rfl⟩ := decode_of_accepts hr h
    obtain ⟨i', hi', rfl⟩ := decode_of_accepts hr' h'
    cases hi.symm.trans hi'
    rfl

/-! ## Single fields (R36, R39) -/

/-- Settles O4: ten closed words. -/
theorem specWordsDecodeAsWritten : Obligations.SpecWordsDecodeAsWritten := by
  unfold Obligations.SpecWordsDecodeAsWritten
  decide

/-- Settles O5: the decoder leaves such a word to WSEL. -/
theorem wselSelectsTheWidth : Obligations.WselSelectsTheWidth := by
  intro p w hop ha hb hidx
  rw [decode_of_gen_fields p hop ha hb hidx]
  obtain ⟨i, gw, hd, hops, hbits, hsel⟩ | ⟨hsel, hd⟩ := decodeGen_cases p (fieldWsel w) (fieldK w).toNat
  · rw [if_pos hsel]
    exact ⟨i, gw, hd, hops, hbits⟩
  · have unsupported : ¬ ((fieldWsel w).toNat < 4 ∨ ((fieldWsel w).toNat = 4 ∧ p.maxWidth = .w128)) := by
      rintro (hlt | ⟨heq, hmax⟩)
      · omega
      · obtain hgt | ⟨-, hmax'⟩ := hsel
        · omega
        · cases hmax.symm.trans hmax'
    rw [if_neg unsupported]
    exact hd

/-- Settles O6: the decoder goes on to a command only when all these fields are zero. -/
theorem reservedFieldsAreNeverIgnored : Obligations.ReservedFieldsAreNeverIgnored := by
  intro p w hop hres
  obtain ⟨hop3, -⟩ | ⟨-, -, hd⟩ | ⟨ha, hb, ⟨hop0, hidx, -⟩ | ⟨hop1, hws, -⟩ | ⟨-, hws, hidx, -⟩⟩ := decode_cases p w
  · exact absurd hop3 hop
  · exact hd
  · simp [ha, hb, hidx, hop0] at hres
  · simp [ha, hb, hws, hop1] at hres
  · simp [ha, hb, hws, hidx] at hres

/-! ## The assembler (R45) -/

theorem assemble_of_expandStmt {a : AsmStmt} {i : Instr} (h : expandStmt a = some i) (p : Params) :
    assemble p a = if WellFormed p i then some i else none := by
  rw [assemble, h]

theorem assemble_eq_some_iff (p : Params) (a : AsmStmt) (i : Instr) :
    assemble p a = some i ↔ expandStmt a = some i ∧ WellFormed p i = true := by
  cases h : expandStmt a with
  | none => simp [assemble, h]
  | some j =>
    rw [assemble_of_expandStmt h, Option.ite_none_right_eq_some]
    constructor
    · rintro ⟨hwf, ⟨⟩⟩
      exact ⟨rfl, hwf⟩
    · rintro ⟨⟨⟩, hwf⟩
      exact ⟨hwf, rfl⟩

/-- GEN exists for exactly the five widths of WIDTHS (R2), and any k that fits its field is well formed. -/
theorem genOfWidth_eq_some {w k : Nat} {i : Instr} (h : genOfWidth w k = some i) :
    (w = 8 ∨ w = 16 ∨ w = 32 ∨ w = 64 ∨ w = 128) ∧ WellFormed hardware i = fitsK k ∧
      ∃ gw, genOperands i = some (gw, k) ∧ gw.bits = w := by
  unfold genOfWidth at h
  split at h <;> cases h
  · exact ⟨by decide, rfl, .w8, rfl, rfl⟩
  · exact ⟨by decide, rfl, .composed .w16, rfl, rfl⟩
  · exact ⟨by decide, rfl, .composed .w32, rfl, rfl⟩
  · exact ⟨by decide, rfl, .composed .w64, rfl, rfl⟩
  · exact ⟨by decide, rfl, .composed .w128, rfl, rfl⟩

theorem exists_genOfWidth {w : Nat} (h : w = 8 ∨ w = 16 ∨ w = 32 ∨ w = 64 ∨ w = 128) (k : Nat) :
    ∃ i, genOfWidth w k = some i := by
  obtain rfl | rfl | rfl | rfl | rfl := h <;> exact ⟨_, rfl⟩

theorem assemble_gen_isSome_iff (w k : Nat) :
    (assemble hardware (.gen w k)).isSome = true ↔ (w = 8 ∨ w = 16 ∨ w = 32 ∨ w = 64 ∨ w = 128) ∧ k ≤ 255 := by
  rw [Option.isSome_iff_exists]
  constructor
  · rintro ⟨i, hi⟩
    obtain ⟨hexp, hwf⟩ := (assemble_eq_some_iff ..).mp hi
    obtain ⟨hw, hk, -⟩ := genOfWidth_eq_some hexp
    exact ⟨hw, (fitsK_iff k).mp (hk ▸ hwf)⟩
  · rintro ⟨hw, hk⟩
    obtain ⟨i, hexp⟩ := exists_genOfWidth hw k
    obtain ⟨-, hwf, -⟩ := genOfWidth_eq_some hexp
    exact ⟨i, (assemble_eq_some_iff ..).mpr ⟨hexp, hwf.trans ((fitsK_iff k).mpr hk)⟩⟩

/-- Settles O7: the assembler gives the command that a statement expands to when that is well formed, and a well-formed
command decodes from its encoding. -/
theorem assemblerFollowsItsTable : Obligations.AssemblerFollowsItsTable := by
  refine ⟨fun p k => rfl, fun p w => rfl, fun p w => rfl, assemble_gen_isSome_iff, fun w k i hi => ?_, fun p k i => ?_,
    fun p k => ?_⟩
  · obtain ⟨hexp, hwf⟩ := (assemble_eq_some_iff ..).mp hi
    obtain ⟨-, -, gw, hops, hbits⟩ := genOfWidth_eq_some hexp
    exact ⟨gw, hops, hbits, encodedCommandsDecodeBack hardware i hwf⟩
  · rw [assemble_of_expandStmt rfl]
    simp [WellFormed, fitsK_iff, fitsIdx_iff]
  · rw [assemble_of_expandStmt rfl]
    simp [WellFormed, fitsK_iff]

/-! ## STATUS (R40, R70) -/

/-- The codes of the reasons are 1 to 6: none is the 0 of success. -/
theorem statusCode_range (e : Reason) : 0 < (statusCode e).toNat ∧ (statusCode e).toNat ≤ 6 := by
  cases e <;> decide

/-- Settles O37: a response is a value with STATUS 0 and itself as RESULT, or a reason with its code and RESULT 0. -/
theorem statusTellsWhetherThereIsAValue : Obligations.StatusTellsWhetherThereIsAValue := by
  refine ⟨fun r => ?_, by decide⟩
  cases r with
  | ok v => simp [Response.status, Response.value?, Response.result]
  | error e =>
    obtain ⟨hpos, hle⟩ := statusCode_range e
    have hne : statusCode e ≠ 0#4 := fun h => by simp [h] at hpos
    simp [Response.status, Response.value?, Response.result, hle, hne]

end Sys2Proof

/-! PROOFS (40_popcount_lookup_rom.md). The family of R46 to R48: an entry of the byte table as ROMRD and the byte sampler read it,
against the bucket as lookup reads it, and the two commands that expose the table. -/

namespace Sys2Proof.Machine

/-! ## The entries of a bucket (R46, R47, R49) -/

theorem exists_offsetRom {k : Nat} (hk : k ≤ 8) : ∃ base, offsetRom k = some base := by
  obtain ⟨base, hbase, -⟩ := Option.map_eq_some_iff.mp (offsetRom_of_le hk)
  exact ⟨base, hbase⟩

theorem lookup_eq_slice {k : Nat} {base : BitVec 8} {size : BitVec 7} (hbase : offsetRom k = some base)
    (hsize : sizeRom k = some size) : lookup k = some ((popRom.drop base.toNat).take size.toNat) := by
  simp only [lookup, hbase, hsize]

theorem lookup_of_gt {k : Nat} (hk : 8 < k) : lookup k = none := by
  simp only [lookup, offsetRom_of_gt hk]

theorem romEntry_of_gt {k : Nat} (hk : 8 < k) (i : Nat) : romEntry k i = .error .lookupOutOfRange := by
  simp only [romEntry, offsetRom_of_gt hk]

theorem romEntry_eq_ok_iff {k i : Nat} {base : BitVec 8} {b : Byte} (hbase : offsetRom k = some base) :
    romEntry k i = .ok b ↔ romRead (base.toNat + i) = some b := by
  cases hread : romRead (base.toNat + i) with
  | none => simp [romEntry, hbase, hread]
  | some b' => simp [romEntry, hbase, hread]

/-- Settles O11: the bucket is the slice of POP_ROM that starts at OFFSET_ROM[k] and holds C(8,k) bytes, so its `i`-th byte is
the one at address OFFSET_ROM[k] + i. -/
theorem entriesComeFromTheirBucket : Obligations.EntriesComeFromTheirBucket := by
  refine ⟨fun k hk => ?_, fun k i hk => ⟨lookup_of_gt hk, romEntry_of_gt hk i⟩⟩
  obtain ⟨-, size, hsize, hn⟩ | ⟨hgt, -⟩ := sizeRom_cases k
  · obtain ⟨base, hbase⟩ := exists_offsetRom hk
    refine ⟨_, lookup_eq_slice hbase hsize, fun i b => ?_⟩
    rw [romEntry_eq_ok_iff hbase, hn, List.getElem?_take, List.getElem?_drop, romRead, Option.ite_none_right_eq_some]
  · omega

/-! ## ROMRD (R47) -/

/-- Settles O13: below C(8,k) no check fails, and the entry answered is the one that POP_ROM holds at OFFSET_ROM[k] + i. -/
theorem romrdAnswersTheEntry : Obligations.RomrdAnswersTheEntry := by
  intro s k i hk hi
  obtain ⟨base, hbase⟩ := exists_offsetRom hk
  obtain ⟨hgt, -⟩ | ⟨-, hge, -⟩ | ⟨-, -, b, hb, h⟩ := execRomrd_cases k i s
  · omega
  · omega
  · refine ⟨base, b, hbase, (romEntry_eq_ok_iff hbase).mp hb, ?_⟩
    rw [respondValue, BitVec.ofNat_toNat] at h
    exact h

/-- Settles O14: the popcount is checked before the index. -/
theorem romrdRaisesItsRangeErrors : Obligations.RomrdRaisesItsRangeErrors := by
  intro s k i
  obtain ⟨hgt, h⟩ | ⟨hle, hge, h⟩ | ⟨hle, hlt, -⟩ := execRomrd_cases k i s
  · exact ⟨fun _ => h, fun hle => by omega⟩
  · exact ⟨fun hgt => by omega, fun _ _ => h⟩
  · exact ⟨fun hgt => by omega, fun _ hge => by omega⟩

/-! ## ROMSZ (R48) -/

/-- Settles O15: a popcount up to 8 passes the only check, and SIZE_ROM[k] is C(8,k). -/
theorem romszAnswersTheSize : Obligations.RomszAnswersTheSize := by
  intro s k hk
  obtain ⟨hgt, -⟩ | ⟨-, h⟩ := execRomsz_cases k s
  · omega
  · exact h

/-- Settles O16: the range of popcounts is the only check of ROMSZ. -/
theorem romszRaisesPopcountRange : Obligations.RomszRaisesPopcountRange := by
  intro s k hk
  obtain ⟨-, h⟩ | ⟨hle, -⟩ := execRomsz_cases k s
  · exact h
  · omega

end Sys2Proof.Machine

/-! PROOFS (41_uniform_byte_sampler.md). The family of R52: the answers to the byte sampler's one draw against the bucket that they
index. -/

namespace Sys2Proof.Machine

/-! ## A bucket as the set of its bytes (R24, R52) -/

theorem mem_lookup_iff {k : Nat} {l : List Byte} (hk : k ≤ 8) (hl : lookup k = some l) (b : Byte) :
    b ∈ l ↔ popcount 8 b.toNat = k := by
  obtain ⟨l', hl', hbytes⟩ := lookup_of_le hk
  obtain rfl := Option.some.inj (hl.symm.trans hl')
  calc b ∈ l ↔ b.toNat ∈ l.map BitVec.toNat := (List.mem_map_of_injective BitVec.toNat_injective).symm
    _ ↔ popcount 8 b.toNat = k := by
      rw [hbytes, List.mem_filter, List.mem_range, decide_eq_true_iff, and_iff_right b.isLt]

theorem lookup_nodup {k : Nat} {l : List Byte} (hk : k ≤ 8) (hl : lookup k = some l) : l.Nodup := by
  obtain ⟨l', hl', hbytes⟩ := lookup_of_le hk
  obtain rfl := Option.some.inj (hl.symm.trans hl')
  exact List.Nodup.of_map BitVec.toNat (hbytes ▸ List.nodup_range.filter _)

/-- Settles O12: the bytes of popcount k are the members of the bucket, and a list without repetitions holds each member at exactly
one index. -/
theorem answersMapOneToOneOntoTheBucket : Obligations.AnswersMapOneToOneOntoTheBucket := by
  refine fun k hk => ⟨fun i hi => romEntry_of_lt hk hi, fun b hb => ?_⟩
  obtain ⟨l, hl, hentry⟩ := entriesComeFromTheirBucket.1 k hk
  obtain ⟨i, hib⟩ := List.getElem?_of_mem ((mem_lookup_iff hk hl b).mpr hb)
  obtain ⟨hi, hok⟩ := (hentry i b).mpr hib
  refine ⟨i, hi, hok, fun j hj hjb => ?_⟩
  have hjb' : l[j]? = some b := (hentry j b).mp ⟨hj, hjb⟩
  obtain ⟨hjl, -⟩ := List.getElem?_eq_some_iff.mp hjb'
  exact (List.getElem?_inj hjl (lookup_nodup hk hl)).mp (hjb'.trans hib.symm)

end Sys2Proof.Machine

/-! PROOFS (42_recursive_width_composer.md). The family of R54 to R61: the split and the two halves, what GEN responds, and the
walks of sample(W, k) that end in a value, their answers and the ranges of their draws. -/

namespace Sys2Proof

/-- The bits above a value that fits are clear. -/
theorem popcount_of_le {n m v : Nat} (hnm : n ≤ m) (hv : v < 2 ^ n) : popcount m v = popcount n v := by
  have h := popcount_concat (m - n) n 0 v hv
  rwa [Nat.zero_mul, Nat.zero_add, popcount_zero, Nat.add_zero, Nat.add_sub_cancel' hnm] at h

theorem eq_zero_of_popcount {n v : Nat} (hv : v < 2 ^ n) (hp : popcount n v = 0) : v = 0 := by
  induction n generalizing v with
  | zero => simpa using hv
  | succ n ih =>
    simp only [popcount] at hp
    have := ih (v := v / 2) (by omega) (by omega)
    omega

theorem eq_ones_of_popcount {n v : Nat} (hv : v < 2 ^ n) (hp : popcount n v = n) : v = 2 ^ n - 1 := by
  induction n generalizing v with
  | zero => simpa using hv
  | succ n ih =>
    have hle := popcount_le n (v / 2)
    simp only [popcount] at hp
    have := ih (v := v / 2) (by omega) (by omega)
    omega

/-- C(n,k) at the four ends that R60 names: 1 outermost, n next to it. -/
theorem choose_at_ends {n k : Nat} (hn : 0 < n) :
    (k = 0 ∨ k = n → Nat.choose n k = 1) ∧ (k = 1 ∨ k = n - 1 → Nat.choose n k = n) := by
  obtain ⟨m, rfl⟩ := Nat.exists_eq_add_one.mpr hn
  constructor
  · rintro (rfl | rfl)
    · exact Nat.choose_zero_right _
    · exact Nat.choose_self _
  · rintro (rfl | rfl)
    · exact Nat.choose_one_right _
    · exact Nat.choose_succ_self_right _

end Sys2Proof

namespace Sys2Proof.Machine

/-! ## The split (R54) and the concatenation (R57) -/

/-- The splits in the range are those that leave each half a popcount it can have. -/
theorem split_feasible_iff (c : ComposerWidth) (k h : Nat) :
    splitLo c k ≤ h ∧ h ≤ splitHi c k ↔ h ≤ c.half.bits ∧ h ≤ k ∧ k - h ≤ c.half.bits := by
  simp only [splitLo, splitHi]
  omega

/-- The 8-bit fields of the request hold the bounds, which are at most 64. -/
theorem splitRequest_bounds {c : ComposerWidth} {k : Nat} (hk : k ≤ c.bits) :
    (splitRequest c k).lo.toNat = splitLo c k ∧ (splitRequest c k).hi.toNat = splitHi c k := by
  have hbits := half_bits c
  have hhalf := half_bits_le c
  simp only [splitRequest, BitVec.toNat_ofNat, splitLo, splitHi]
  omega

/-- Settles O28: with W twice the half, each clause is arithmetic of max(0, k − half) and min(k, half). -/
theorem splitRangeIsTheFeasibleOne : Obligations.SplitRangeIsTheFeasibleOne := by
  intro c k h0 hk
  have hbits := half_bits c
  obtain ⟨-, hhalf⟩ := half_bits_le c
  obtain ⟨hlo, hhi⟩ := splitRequest_bounds hk.le
  have hlt : splitLo c k < splitHi c k := by
    simp only [splitLo, splitHi]
    omega
  have hsize : splitHi c k - splitLo c k + 1 = min k (min (c.bits - k) c.half.bits) + 1 := by
    simp only [splitLo, splitHi]
    omega
  exact ⟨hlt, min_le_right _ _, hhalf, hbits, split_feasible_iff c k, hsize, rfl, hlo, hhi⟩

theorem two_pow_bits (c : ComposerWidth) : 2 ^ c.bits = 2 ^ c.half.bits * 2 ^ c.half.bits := by
  rw [half_bits, two_mul, pow_add]

theorem concatHalves_parts {c : ComposerWidth} {hv lv : Nat} (hlv : lv < 2 ^ c.half.bits) :
    concatHalves c hv lv / 2 ^ c.half.bits = hv ∧ concatHalves c hv lv % 2 ^ c.half.bits = lv := by
  rw [concatHalves_eq c hv hlv, mul_comm]
  exact ⟨by rw [Nat.mul_add_div (Nat.two_pow_pos _), Nat.div_eq_of_lt hlv, Nat.add_zero],
    by rw [Nat.mul_add_mod, Nat.mod_eq_of_lt hlv]⟩

/-- Settles O29: the lower half fits below the shifted upper half, so the bitwise or is a sum. -/
theorem halvesConcatenateWithoutOverlap : Obligations.HalvesConcatenateWithoutOverlap := by
  intro c hv lv hhv hlv
  obtain ⟨hdiv, hmod⟩ := concatHalves_parts (hv := hv) hlv
  refine ⟨?_, concatHalves_eq c hv hlv, hdiv, hmod⟩
  rwa [two_pow_bits, ← Nat.div_lt_iff_lt_mul (Nat.two_pow_pos _), hdiv]

/-- Every sample of the whole is the concatenation of samples of the two halves, at a split in the range. -/
theorem exists_halves_of_isSample {c : ComposerWidth} {k v : Nat} (hv : isSample (.composed c) k v = true) :
    ∃ h hv lv, splitLo c k ≤ h ∧ h ≤ splitHi c k ∧ isSample c.half h hv = true ∧ isSample c.half (k - h) lv = true ∧
      v = concatHalves c hv lv := by
  obtain ⟨-, hpop, hlt⟩ := (isSample_iff _ _ _).mp hv
  have hbits : (Width.composed c).bits = c.half.bits + c.half.bits := (half_bits c).trans (two_mul _)
  have hhigh : v / 2 ^ c.half.bits < 2 ^ c.half.bits :=
    (Nat.div_lt_iff_lt_mul (Nat.two_pow_pos _)).mpr (two_pow_bits c ▸ hlt)
  have hlow : v % 2 ^ c.half.bits < 2 ^ c.half.bits := Nat.mod_lt _ (Nat.two_pow_pos _)
  have hcat : v = v / 2 ^ c.half.bits * 2 ^ c.half.bits + v % 2 ^ c.half.bits := (Nat.div_add_mod' _ _).symm
  rw [hbits, hcat, popcount_concat _ _ _ _ hlow] at hpop
  have hhighle := popcount_le c.half.bits (v / 2 ^ c.half.bits)
  have hlowle := popcount_le c.half.bits (v % 2 ^ c.half.bits)
  obtain ⟨hlo, hhi⟩ := (split_feasible_iff c k (popcount c.half.bits (v / 2 ^ c.half.bits))).mpr
    ⟨hhighle, by omega, by omega⟩
  exact ⟨_, _, _, hlo, hhi, (isSample_iff _ _ _).mpr ⟨hhighle, rfl, hhigh⟩,
    (isSample_iff _ _ _).mpr ⟨by omega, by omega, hlow⟩, hcat.trans (concatHalves_eq c _ hlow).symm⟩

/-- A concatenation has one high half, one low half and one split (R57, R59). -/
theorem concatHalves_inj_of_isSample {c : ComposerWidth} {h h' l l' hv hv' lv lv' : Nat}
    (hhigh : isSample c.half h hv = true) (hhigh' : isSample c.half h' hv' = true) (hlow : isSample c.half l lv = true)
    (hlow' : isSample c.half l' lv' = true) (heq : concatHalves c hv lv = concatHalves c hv' lv') :
    h = h' ∧ hv = hv' ∧ lv = lv' := by
  obtain ⟨-, hpop, -⟩ := (isSample_iff _ _ _).mp hhigh
  obtain ⟨-, hpop', -⟩ := (isSample_iff _ _ _).mp hhigh'
  obtain ⟨-, -, hlt⟩ := (isSample_iff _ _ _).mp hlow
  obtain ⟨-, -, hlt'⟩ := (isSample_iff _ _ _).mp hlow'
  obtain ⟨hdiv, hmod⟩ := concatHalves_parts (hv := hv) hlt
  obtain ⟨hdiv', hmod'⟩ := concatHalves_parts (hv := hv') hlt'
  rw [heq] at hdiv hmod
  obtain rfl := hdiv.symm.trans hdiv'
  exact ⟨hpop.symm.trans hpop', rfl, hmod.symm.trans hmod'⟩

/-! ## What a command responds (R59, R62) -/

/-- A GEN command that has responded a value was within its width and responded a sample. -/
theorem isSample_of_exec {i : Instr} {w : Width} {k : Nat} {s t : State} {v : BitVec 128}
    (hops : genOperands i = some (w, k)) (ht : exec i s = .next t) (hphase : t.phase = .respond)
    (hrsp : t.rspBuf = some (.ok v)) : isSample w k v.toNat = true := by
  rw [exec_of_genOperands hops] at ht
  obtain ⟨-, hraise⟩ | ⟨hk, -⟩ := generate_cases hardware w k s
  · obtain rfl := Host.Outcome.next.inj (hraise.symm.trans ht)
    exact nomatch hrsp
  obtain ⟨u, t', ht', -, -, hend⟩ := generate_ends hardware hk s
  obtain rfl := Host.Outcome.next.inj (ht'.symm.trans ht)
  cases hend with
  | @value x hx =>
    obtain ⟨-, -, hlt⟩ := (isSample_iff _ _ _).mp hx
    obtain rfl : BitVec.ofNat 128 x = v := Response.ok.inj (Option.some.inj hrsp)
    rwa [BitVec.toNat_ofNat, Nat.mod_eq_of_lt (hlt.trans_le (Nat.pow_le_pow_right two_pos (width_bits_le w)))]
  | outOfRange => exact nomatch hrsp
  | waits _ => exact nomatch hphase

/-- Settles O22: the walk over WORK keeps its values samples of their widths, and a sample's bits above W are clear. -/
theorem genResultHasTheWeightAskedFor : Obligations.GenResultHasTheWeightAskedFor := by
  intro i w k s t v hops ht hphase hrsp
  obtain ⟨hk, hpop, hlt⟩ := (isSample_iff _ _ _).mp (isSample_of_exec hops ht hphase hrsp)
  exact ⟨hk, hpop, hlt, (popcount_of_le (width_bits_le w) hlt).trans hpop⟩

/-- Settles O32: the ROM commands respond at once; GEN responds POPCOUNT_RANGE or ends as its sample does. -/
theorem everyCommandAnswersANextState : Obligations.EveryCommandAnswersANextState := by
  intro i s
  obtain ⟨w, k, -, hgen⟩ | ⟨k, j, rfl⟩ | ⟨k, rfl⟩ := exec_cases i
  · obtain ⟨-, hraise⟩ | ⟨hk, -⟩ := generate_cases hardware w k s
    · exact ⟨_, (hgen s).trans hraise, .inl rfl⟩
    · obtain ⟨u, t, ht, -, -, hend⟩ := generate_ends hardware hk s
      refine ⟨t, (hgen s).trans ht, ?_⟩
      cases hend with
      | value _ => exact .inl rfl
      | outOfRange => exact .inl rfl
      | waits _ => exact .inr ⟨rfl, rfl⟩
  · obtain ⟨r, hr⟩ := execRomrd_eq_respond k j
    exact ⟨_, hr s, .inl rfl⟩
  · obtain ⟨r, hr⟩ := execRomsz_eq_respond k
    exact ⟨_, hr s, .inl rfl⟩

/-! ## The walks of sample(W, k) that end in a value (R55 to R58) -/

theorem follow_ask_eq_value_iff {d : DrawReq} {go : Nat → DrawTree} {as unused : List Byte} {v : Nat} {ds : List DrawReq} :
    (DrawTree.ask d go).follow as = .value v ds unused ↔
      ∃ a as' ds', as = a :: as' ∧ ds = d :: ds' ∧ d.inRange a = true ∧
        (go a.toNat).follow as' = .value v ds' unused := by
  refine ⟨follow_ask_eq_value, ?_⟩
  rintro ⟨a, as', ds', rfl, rfl, ha, hf⟩
  rw [follow_ask_of_inRange ha, hf]
  rfl

/-- The second computation goes on with the answers that the first leaves. -/
theorem follow_andThen_eq_value_iff {t : DrawTree} {g : Nat → DrawTree} {as unused : List Byte} {v : Nat}
    {ds : List DrawReq} :
    (t.andThen g).follow as = .value v ds unused ↔
      ∃ x ds₁ left ds₂, t.follow as = .value x ds₁ left ∧ (g x).follow left = .value v ds₂ unused ∧ ds = ds₁ ++ ds₂ := by
  induction t generalizing as ds with
  | ret x =>
    constructor
    · exact fun h => ⟨x, [], as, ds, rfl, h, rfl⟩
    · rintro ⟨x', ds₁, left, ds₂, hx, hg, rfl⟩
      obtain ⟨rfl, rfl, rfl⟩ := Followed.value.inj hx
      exact hg
  | violate f =>
    constructor
    · exact nofun
    · rintro ⟨x, ds₁, left, ds₂, hx, -⟩
      exact nomatch hx
  | ask d go ih =>
    rw [andThen_ask, follow_ask_eq_value_iff]
    constructor
    · rintro ⟨a, as', ds', rfl, rfl, ha, hf⟩
      obtain ⟨x, ds₁, left, ds₂, hx, hg, rfl⟩ := (ih a.toNat).mp hf
      exact ⟨x, d :: ds₁, left, ds₂, follow_ask_eq_value_iff.mpr ⟨a, as', ds₁, rfl, rfl, ha, hx⟩, hg, rfl⟩
    · rintro ⟨x, ds₁, left, ds₂, hx, hg, rfl⟩
      obtain ⟨a, as', ds₁, rfl, rfl, ha, hx⟩ := follow_ask_eq_value hx
      exact ⟨a, as', ds₁ ++ ds₂, rfl, rfl, ha, (ih a.toNat).mpr ⟨x, ds₁, left, ds₂, hx, hg, rfl⟩⟩

/-- What compose(W, k) does where neither shortcut applies (R53). -/
theorem sampleTree_between (p : Params) {c : ComposerWidth} {k : Nat} (h0 : 0 < k) (hk : k < c.bits) :
    sampleTree p (.composed c) k =
      .ask (splitRequest c k) fun h => (sampleTree p c.half h).andThen fun hv =>
        (sampleTree p c.half (k - h)).andThen fun lv => .ret (concatHalves c hv lv) := by
  rw [sampleTree_composed, composeTree, if_neg h0.ne', if_neg hk.ne]

theorem sampleTree_zero (p : Params) (c : ComposerWidth) : sampleTree p (.composed c) 0 = .ret 0 := by
  rw [sampleTree_composed, composeTree, if_pos rfl]

theorem sampleTree_bits (p : Params) (c : ComposerWidth) : sampleTree p (.composed c) c.bits = .ret (allOnes c) := by
  have := half_bits c
  have := half_bits_le c
  rw [sampleTree_composed, composeTree, if_neg (by omega), if_pos rfl]

theorem sampleTree_w8 {k : Nat} (hk : k ≤ 8) :
    sampleTree hardware .w8 k = .ask (indexRequest (Nat.choose 8 k)) (entryTree k) :=
  (sampleByteTree_of_le hardware hk).trans (if_neg fun h => nomatch h.1)

/-- `SampleWalk w k as u v ds`: on this hardware the answers `as` lead sample(w, k) to `v` over the requests `ds`, and `u` is
what is left of them. One constructor for each way that R49, R53 and R55 to R57 give it a value. -/
inductive SampleWalk : Width → Nat → List Byte → List Byte → Nat → List DrawReq → Prop
  | byte {k v : Nat} {a b : Byte} {u : List Byte} : k ≤ 8 → a.toNat < Nat.choose 8 k → romEntry k a.toNat = .ok b →
      v = b.toNat → SampleWalk .w8 k (a :: u) u v [indexRequest (Nat.choose 8 k)]
  | zeros {c : ComposerWidth} {u : List Byte} : SampleWalk (.composed c) 0 u u 0 []
  | ones {c : ComposerWidth} {k v : Nat} {u : List Byte} : k = c.bits → v = allOnes c → SampleWalk (.composed c) k u u v []
  | split {c : ComposerWidth} {k v hv lv : Nat} {h : Byte} {as left u : List Byte} {ds ds' : List DrawReq} :
      0 < k → k < c.bits → splitLo c k ≤ h.toNat ∧ h.toNat ≤ splitHi c k →
      SampleWalk c.half h.toNat as left hv ds → SampleWalk c.half (k - h.toNat) left u lv ds' →
      v = concatHalves c hv lv → SampleWalk (.composed c) k (h :: as) u v (splitRequest c k :: (ds ++ ds'))

theorem SampleWalk.follow {w : Width} {k v : Nat} {as u : List Byte} {ds : List DrawReq}
    (hw : SampleWalk w k as u v ds) : (sampleTree hardware w k).follow as = .value v ds u := by
  induction hw with
  | byte hk ha hb hv =>
    rw [sampleTree_w8 hk, follow_ask_eq_value_iff]
    exact ⟨_, _, [], rfl, rfl, (indexRequest_inRange_iff hk _).mpr ha, by simp [entryTree, hb, hv, DrawTree.follow]⟩
  | zeros =>
    rw [sampleTree_zero]
    rfl
  | ones hk hv =>
    rw [hk, hv, sampleTree_bits]
    rfl
  | split h0 hk hh _ _ hv ihhigh ihlow =>
    rw [sampleTree_between hardware h0 hk, follow_ask_eq_value_iff]
    refine ⟨_, _, _, rfl, rfl, (splitRequest_inRange_iff hk.le _).mpr hh, ?_⟩
    refine follow_andThen_eq_value_iff.mpr ⟨_, _, _, _, ihhigh, ?_, rfl⟩
    refine follow_andThen_eq_value_iff.mpr ⟨_, _, _, [], ihlow, ?_, (List.append_nil _).symm⟩
    rw [hv]
    rfl

theorem SampleWalk.of_follow {w : Width} {k v : Nat} {as u : List Byte} {ds : List DrawReq} (hk : k ≤ w.bits)
    (hf : (sampleTree hardware w k).follow as = .value v ds u) : SampleWalk w k as u v ds := by
  induction w using width_induction generalizing k v as u ds with
  | w8 =>
    rw [sampleTree_w8 hk] at hf
    obtain ⟨a, as, ds, rfl, rfl, ha, hf⟩ := follow_ask_eq_value hf
    have hlt := (indexRequest_inRange_iff hk a).mp ha
    obtain ⟨b, hb, -⟩ := romEntry_of_lt hk hlt
    simp only [entryTree, hb] at hf
    obtain ⟨rfl, rfl, rfl⟩ := Followed.value.inj hf
    exact .byte hk hlt hb rfl
  | composed c ih =>
    by_cases h0 : k = 0
    · subst h0
      rw [sampleTree_zero] at hf
      obtain ⟨rfl, rfl, rfl⟩ := Followed.value.inj hf
      exact .zeros
    by_cases hW : k = c.bits
    · rw [hW, sampleTree_bits] at hf
      obtain ⟨rfl, rfl, rfl⟩ := Followed.value.inj hf
      exact .ones hW rfl
    have hlt : k < c.bits := lt_of_le_of_ne hk hW
    rw [sampleTree_between hardware (Nat.pos_of_ne_zero h0) hlt] at hf
    obtain ⟨h, as, ds, rfl, rfl, hh, hhalves⟩ := follow_ask_eq_value hf
    obtain ⟨hv, dsHigh, left, dsRest, hhigh, hrest, rfl⟩ := follow_andThen_eq_value_iff.mp hhalves
    obtain ⟨lv, dsLow, left', dsNone, hlow, hdone, rfl⟩ := follow_andThen_eq_value_iff.mp hrest
    obtain ⟨rfl, rfl, rfl⟩ := Followed.value.inj hdone
    obtain ⟨hhighle, hlowle⟩ := half_popcounts_of_inRange hk hh
    rw [List.append_nil]
    exact .split (Nat.pos_of_ne_zero h0) hlt ((splitRequest_inRange_iff hk h).mp hh) (ih hhighle hhigh) (ih hlowle hlow) rfl

/-! ## One answer sequence for each value (R60) -/

theorem SampleWalk.isSample {w : Width} {k v : Nat} {as u : List Byte} {ds : List DrawReq}
    (hw : SampleWalk w k as u v ds) : isSample w k v = true := by
  induction hw with
  | byte hk ha hb hv =>
    obtain ⟨b, hb', hs⟩ := isSample_romEntry hk ha
    obtain rfl := Except.ok.inj (hb.symm.trans hb')
    rwa [hv]
  | zeros => exact isSample_zero _
  | ones hk hv => exact hk ▸ hv ▸ isSample_allOnes _
  | split _ _ hh _ _ hv ihhigh ihlow =>
    obtain ⟨-, hle, -⟩ := (split_feasible_iff _ _ _).mp hh
    exact hv ▸ isSample_concatHalves hle ihhigh ihlow

/-- Every sample is reached, whatever answers are to come after. -/
theorem exists_sampleWalk {w : Width} {k v : Nat} (hv : isSample w k v = true) (u : List Byte) :
    ∃ as ds, SampleWalk w k as u v ds := by
  induction w using width_induction generalizing k v u with
  | w8 =>
    obtain ⟨hk, hpop, hlt⟩ := (isSample_iff _ _ _).mp hv
    have hbyte : (BitVec.ofNat 8 v).toNat = v := (BitVec.toNat_ofNat _ _).trans (Nat.mod_eq_of_lt hlt)
    obtain ⟨i, hi, hb, -⟩ := (answersMapOneToOneOntoTheBucket k hk).2 (BitVec.ofNat 8 v) (hbyte.symm ▸ hpop)
    have hanswer : (BitVec.ofNat 8 i).toNat = i := by
      obtain ⟨-, hmax⟩ := choose_eight_le hk
      rw [BitVec.toNat_ofNat]
      omega
    exact ⟨BitVec.ofNat 8 i :: u, _, .byte hk (hanswer.symm ▸ hi) (hanswer.symm ▸ hb) hbyte.symm⟩
  | composed c ih =>
    obtain ⟨hk, hpop, hlt⟩ := (isSample_iff _ _ _).mp hv
    by_cases h0 : k = 0
    · subst h0
      obtain rfl := eq_zero_of_popcount hlt hpop
      exact ⟨u, [], .zeros⟩
    by_cases hW : k = c.bits
    · subst hW
      obtain rfl : v = allOnes c := eq_ones_of_popcount hlt hpop
      exact ⟨u, [], .ones rfl rfl⟩
    obtain ⟨h, hv, lv, hlo, hhi, hhigh, hlow, rfl⟩ := exists_halves_of_isSample hv
    obtain ⟨left, ds', hwlow⟩ := ih hlow u
    obtain ⟨as, ds, hwhigh⟩ := ih hhigh left
    have hanswer : (BitVec.ofNat 8 h).toNat = h := by
      obtain ⟨hle, -⟩ := (split_feasible_iff c k h).mp ⟨hlo, hhi⟩
      obtain ⟨-, hmax⟩ := half_bits_le c
      rw [BitVec.toNat_ofNat]
      omega
    exact ⟨BitVec.ofNat 8 h :: as, _, .split (Nat.pos_of_ne_zero h0) (lt_of_le_of_ne hk hW)
      (hanswer.symm ▸ ⟨hlo, hhi⟩) (hanswer.symm ▸ hwhigh) (hanswer.symm ▸ hwlow) rfl⟩

/-- Two walks to one value that leave the same answers got the same answers: the value gives away the index of a byte, and
the split and the halves of a concatenation. -/
theorem SampleWalk.unique {w : Width} {k v : Nat} {as as' u : List Byte} {ds ds' : List DrawReq}
    (hw : SampleWalk w k as u v ds) (hw' : SampleWalk w k as' u v ds') : as' = as := by
  induction hw generalizing as' ds' with
  | @byte k v a b u hk ha hb hv =>
    cases hw' with
    | @byte _ _ a' b' _ _ ha' hb' hv' =>
      obtain rfl : b = b' := BitVec.eq_of_toNat_eq (hv.symm.trans hv')
      obtain ⟨c, hc, hpop⟩ := romEntry_of_lt hk ha
      obtain rfl := Except.ok.inj (hb.symm.trans hc)
      obtain ⟨i, -, -, huniq⟩ := (answersMapOneToOneOntoTheBucket k hk).2 b hpop
      obtain rfl : a' = a := BitVec.eq_of_toNat_eq ((huniq _ ha' hb').trans (huniq _ ha hb).symm)
      rfl
  | zeros =>
    cases hw' with
    | zeros => rfl
    | ones _ _ => rfl
    | split h0 => exact absurd h0 (lt_irrefl 0)
  | ones hk _ =>
    cases hw' with
    | zeros => rfl
    | ones _ _ => rfl
    | split _ hlt => exact absurd hk hlt.ne
  | split h0 hlt hh hhigh hlow hv ihhigh ihlow =>
    cases hw' with
    | zeros => exact absurd h0 (lt_irrefl 0)
    | ones hk _ => exact absurd hk hlt.ne
    | split _ _ hh' hhigh' hlow' hv' =>
      obtain ⟨hsplit, rfl, rfl⟩ :=
        concatHalves_inj_of_isSample hhigh.isSample hhigh'.isSample hlow.isSample hlow'.isSample (hv.symm.trans hv')
      obtain rfl := BitVec.eq_of_toNat_eq hsplit
      obtain rfl := ihlow hlow'
      obtain rfl := ihhigh hhigh'
      rfl

/-- Settles O23: existence by induction on the width, uniqueness by induction on the walk. -/
theorem everyValueHasOneAnswerSequence : Obligations.EveryValueHasOneAnswerSequence := by
  intro w k v hk hlt hpop
  obtain ⟨as, ds, hw⟩ := exists_sampleWalk ((isSample_iff w k v).mpr ⟨hk, hpop, hlt⟩) []
  exact ⟨as, ds, hw.follow, fun as' ds' hf => hw.unique (.of_follow hk hf)⟩

/-! ## The ranges of the draws (R52, R60) -/

theorem rangeProduct_append (ds ds' : List DrawReq) : rangeProduct (ds ++ ds') = rangeProduct ds * rangeProduct ds' := by
  induction ds with
  | nil => exact (one_mul _).symm
  | cons d ds ih => rw [List.cons_append, rangeProduct, rangeProduct, ih, mul_assoc]

theorem rangeProduct_indexRequest {k : Nat} (hk : k ≤ 8) :
    rangeProduct [indexRequest (Nat.choose 8 k)] = Nat.choose 8 k := by
  rw [rangeProduct, rangeProduct, mul_one, indexRequest_rangeSize hk]

/-- With one bit set or one bit clear there are two splits: the bit is in the high half or in the low half. -/
theorem splitRequest_rangeSize_of_end {c : ComposerWidth} {k : Nat} (hk : k = 1 ∨ k = c.bits - 1) :
    (splitRequest c k).rangeSize = 2 := by
  have hbits := half_bits c
  have hhalf := half_bits_le c
  obtain ⟨hlo, hhi⟩ := splitRequest_bounds (c := c) (k := k) (by omega)
  simp only [DrawReq.rangeSize, hlo, hhi, splitLo, splitHi]
  omega

/-- Two splits, `half` values for the half that holds the single bit set (or clear), and one value for the other half: the
product is 2 · half = W, whichever half that is (R60). -/
theorem SampleWalk.rangeProduct_of_end {w : Width} {k v : Nat} {as u : List Byte} {ds : List DrawReq}
    (hw : SampleWalk w k as u v ds) (hend : k ≤ 1 ∨ w.bits ≤ k + 1) : rangeProduct ds = Nat.choose w.bits k := by
  induction hw with
  | byte hk => exact rangeProduct_indexRequest hk
  | zeros => exact (Nat.choose_zero_right _).symm
  | ones hk _ => exact hk ▸ (Nat.choose_self _).symm
  | @split c k v hv lv h as left u ds ds' h0 hlt hh _ _ _ ihhigh ihlow =>
    have hbits := half_bits c
    have hhalf := half_bits_le c
    obtain ⟨hhle, hle, hlowle⟩ := (split_feasible_iff c k h.toNat).mp hh
    have hnext : k = 1 ∨ k = c.bits - 1 := by
      simp only [Width.bits] at hend
      omega
    obtain ⟨outerHigh, nextHigh⟩ := choose_at_ends (n := c.half.bits) (k := h.toNat) (by omega)
    obtain ⟨outerLow, nextLow⟩ := choose_at_ends (n := c.half.bits) (k := k - h.toNat) (by omega)
    have hhalves : Nat.choose c.half.bits h.toNat * Nat.choose c.half.bits (k - h.toNat) = c.half.bits := by
      have hcases : (h.toNat = 1 ∨ h.toNat = c.half.bits - 1) ∧ (k - h.toNat = 0 ∨ k - h.toNat = c.half.bits) ∨
          (h.toNat = 0 ∨ h.toNat = c.half.bits) ∧ (k - h.toNat = 1 ∨ k - h.toNat = c.half.bits - 1) := by omega
      obtain ⟨hhigh, hlow⟩ | ⟨hhigh, hlow⟩ := hcases
      · rw [nextHigh hhigh, outerLow hlow, mul_one]
      · rw [outerHigh hhigh, nextLow hlow, one_mul]
    calc rangeProduct (splitRequest c k :: (ds ++ ds'))
        = 2 * (rangeProduct ds * rangeProduct ds') := by
          rw [rangeProduct, rangeProduct_append, splitRequest_rangeSize_of_end hnext]
      _ = 2 * c.half.bits := by rw [ihhigh (by omega), ihlow (by omega), hhalves]
      _ = Nat.choose c.bits k := by rw [(choose_at_ends (by omega)).2 hnext, hbits]

/-- Settles O24: every walk to a value at these ends, and the two walks of GEN.W16 2 that R60 weighs against each other. -/
theorem drawRangesMultiplyToTheBinomialAtTheEnds : Obligations.DrawRangesMultiplyToTheBinomialAtTheEnds := by
  refine ⟨fun w k as u v ds hk hend hf => ?_, ?_, ?_, by decide⟩
  · have hw := SampleWalk.of_follow hk hf
    obtain rfl | hend := hend
    · cases hw with
      | byte hk => exact rangeProduct_indexRequest hk
    · exact hw.rangeProduct_of_end (by omega)
  · exact ⟨[splitRequest .w16 2, indexRequest 1, indexRequest 28], by decide +kernel, by decide⟩
  · exact ⟨[splitRequest .w16 2, indexRequest 8, indexRequest 8], by decide +kernel, by decide⟩

/-! ## The number of draws (R61) -/

/-- Whatever the answers in range, the computation ends in a value after at most `n` requests and breaks no contract. -/
inductive DrawTree.AsksAtMost : Nat → DrawTree → Prop
  | ret (n v : Nat) : AsksAtMost n (.ret v)
  | ask {n : Nat} {d : DrawReq} {go : Nat → DrawTree} :
      (∀ a : Byte, d.inRange a = true → AsksAtMost n (go a.toNat)) → AsksAtMost (n + 1) (.ask d go)

theorem DrawTree.AsksAtMost.add {m : Nat} {t : DrawTree} (h : t.AsksAtMost m) (n : Nat) : t.AsksAtMost (m + n) := by
  induction h with
  | ret m v => exact .ret _ v
  | @ask m d go _ ih =>
    rw [Nat.add_right_comm]
    exact .ask ih

theorem DrawTree.AsksAtMost.andThen {m n : Nat} {t : DrawTree} {g : Nat → DrawTree} (h : t.AsksAtMost m)
    (hg : ∀ v, (g v).AsksAtMost n) : (t.andThen g).AsksAtMost (m + n) := by
  induction h with
  | ret m v =>
    rw [Nat.add_comm]
    exact (hg v).add m
  | @ask m d go _ ih =>
    rw [Nat.add_right_comm]
    exact .ask ih

/-- The walk made at most `n` requests, wherever it stands, and broke no contract. -/
def Followed.DrawsAtMost (n : Nat) : Followed → Prop
  | .value _ ds _ => ds.length ≤ n
  | .aborted ds _ => ds.length ≤ n
  | .waiting ds => ds.length ≤ n
  | .stopped _ => False

theorem Followed.DrawsAtMost.after {n : Nat} {f : Followed} (h : f.DrawsAtMost n) (d : DrawReq) :
    (f.after d).DrawsAtMost (n + 1) := by
  cases f with
  | value v ds u => exact Nat.succ_le_succ h
  | aborted ds u => exact Nat.succ_le_succ h
  | waiting ds => exact Nat.succ_le_succ h
  | stopped f => exact h

theorem DrawTree.AsksAtMost.follow {n : Nat} {t : DrawTree} (h : t.AsksAtMost n) (as : List Byte) :
    (t.follow as).DrawsAtMost n := by
  induction h generalizing as with
  | ret n v => exact Nat.zero_le n
  | @ask n d go _ ih =>
    rcases as with _ | ⟨a, as⟩
    · exact Nat.le_add_left 1 n
    · rw [DrawTree.follow]
      split
      case isTrue ha => exact (ih a ha as).after d
      case isFalse => exact Nat.le_add_left 1 n

theorem sampleByteTree_asksAtMost (p : Params) {k : Nat} (hk : k ≤ 8) : (sampleByteTree p k).AsksAtMost 1 := by
  have entry {i n : Nat} (hi : i < Nat.choose 8 k) : (entryTree k i).AsksAtMost n := by
    obtain ⟨b, hb, -⟩ := entryTree_of_lt hk hi
    exact hb ▸ .ret n _
  rw [sampleByteTree_of_le p hk]
  split
  case isTrue h => exact entry (h.2 ▸ one_pos)
  case isFalse => exact .ask fun a ha => entry ((indexRequest_inRange_iff hk a).mp ha)

/-- One request for the split and the bound of a half twice: 1 + 2 · (W/8 − 1) = W/4 − 1. -/
theorem sampleTree_asksAtMost (p : Params) {w : Width} {k : Nat} (hk : k ≤ w.bits) :
    (sampleTree p w k).AsksAtMost (w.bits / 4 - 1) := by
  induction w using width_induction generalizing k with
  | w8 => exact sampleByteTree_asksAtMost p hk
  | composed c ih =>
    by_cases h0 : k = 0
    · subst h0
      exact sampleTree_zero p c ▸ .ret _ _
    by_cases hW : k = c.bits
    · subst hW
      exact sampleTree_bits p c ▸ .ret _ _
    have hbound : (Width.composed c).bits / 4 - 1 = c.half.bits / 4 - 1 + (c.half.bits / 4 - 1) + 1 := by
      cases c <;> rfl
    rw [sampleTree_between p (Nat.pos_of_ne_zero h0) (lt_of_le_of_ne hk hW), hbound]
    refine .ask fun h hh => ?_
    obtain ⟨hhigh, hlow⟩ := half_popcounts_of_inRange hk hh
    exact (ih hhigh).andThen fun hv => (ih hlow).andThen (n := 0) fun lv => .ret 0 _

theorem SampleWalk.length_of_w8 {k v : Nat} {as u : List Byte} {ds : List DrawReq} (hw : SampleWalk .w8 k as u v ds) :
    ds.length = 1 := by
  cases hw
  rfl

/-- The split, the high byte's index and the low byte's. -/
theorem SampleWalk.length_of_w16 {k v : Nat} {as u : List Byte} {ds : List DrawReq}
    (hw : SampleWalk (.composed .w16) k as u v ds) (h0 : 0 < k) (hk : k < 16) : ds.length = 3 := by
  cases hw with
  | zeros => exact absurd h0 (lt_irrefl 0)
  | ones hW _ => exact absurd hW hk.ne
  | split _ _ _ hhigh hlow _ =>
    rw [List.length_cons, List.length_append, hhigh.length_of_w8, hlow.length_of_w8]

/-- Settles O25: the bound holds of the tree, so of every walk of it, and the walks of GEN.W16 to a value have a split and two
bytes. -/
theorem drawsStayWithinTheirBound : Obligations.DrawsStayWithinTheirBound := by
  intro w k as hk
  have hbound := (sampleTree_asksAtMost hardware hk).follow as
  cases hf : (sampleTree hardware w k).follow as with
  | value v ds u =>
    rw [hf] at hbound
    refine ⟨hbound, fun hw h0 hlt => ?_⟩
    subst hw
    exact (SampleWalk.of_follow hk hf).length_of_w16 h0 hlt
  | aborted ds u => rwa [hf] at hbound
  | waiting ds => rwa [hf] at hbound
  | stopped f => rwa [hf] at hbound

end Sys2Proof.Machine

/-! PROOFS (43_fixed_popcount_generator.md). The family of R62 to R69: the GEN commands on the answers that lead to a value, their
boundary values, and the words and popcounts that they refuse. -/

namespace Sys2Proof.Machine

/-! ## GEN on the answers of a walk to a value (R62) -/

/-- A GEN command whose answers at hand are those of a walk responds the value of that walk. -/
theorem SampleWalk.exec {i : Instr} {w : Width} {k v : Nat} {as u : List Byte} {ds : List DrawReq}
    (hw : SampleWalk w k as u v ds) (hops : genOperands i = some (w, k)) {s : State} {rest : List Input}
    (hin : s.inputs = answerInputs as ++ rest) :
    exec i s = .next (respondValue v (s.afterDraws ds as (answerInputs u ++ rest))) := by
  obtain ⟨hk, -, -⟩ := (isSample_iff _ _ _).mp hw.isSample
  have hrun := genRunsTheRecursiveDefinition hardware w k s as rest hk hin
  rw [hw.follow] at hrun
  exact (exec_of_genOperands hops s).trans hrun

theorem toNat_ofNat_of_isSample {w : Width} {k v : Nat} (hv : isSample w k v = true) : (BitVec.ofNat 128 v).toNat = v := by
  obtain ⟨-, -, hlt⟩ := (isSample_iff _ _ _).mp hv
  rw [BitVec.toNat_ofNat, Nat.mod_eq_of_lt (hlt.trans_le (Nat.pow_le_pow_right two_pos (width_bits_le w)))]

/-- Settles O21: answers that lead the recursive definition to a value are those of a walk, and its value is a sample. -/
theorem genCompletesOnAnswersInRange : Obligations.GenCompletesOnAnswersInRange := by
  intro i w k s as unused rest v ds hops hk hin hf
  have hw := SampleWalk.of_follow hk hf
  obtain ⟨-, hpop, hlt⟩ := (isSample_iff _ _ _).mp hw.isSample
  exact ⟨BitVec.ofNat 128 v, toNat_ofNat_of_isSample hw.isSample, hpop, hlt, hw.exec hops hin⟩

/-! ## GEN.W8 and GEN.W16 (R63, R64) -/

/-- Settles O17: one answer below C(8,k) is a walk of the byte sampler. -/
theorem genW8SamplesOneByte : Obligations.GenW8SamplesOneByte := by
  intro s k a rest hk hin ha
  obtain ⟨base, hbase⟩ := exists_offsetRom hk
  obtain ⟨b, hb, -⟩ := romEntry_of_lt hk ha
  have hw : SampleWalk .w8 k [a] [] b.toNat _ := .byte hk ha hb rfl
  refine ⟨base, b, hbase, (romEntry_eq_ok_iff hbase).mp hb, (hw.exec (i := .genW8 k) rfl hin).trans ?_⟩
  rw [respondValue, BitVec.ofNat_toNat]
  simp [respond, State.afterDraws, drawEvents, answerInputs, indexRequest]

/-- Settles O18: a split in its range and an index for each byte are a walk of the composer, which puts the high byte above the low
one. -/
theorem genW16SplitsThenSamplesTwoBytes : Obligations.GenW16SplitsThenSamplesTwoBytes := by
  intro s k h a b rest h0 hk hin hlo hhi ha hb
  obtain ⟨-, hhigh, hlow⟩ := half_popcounts_of_split (c := .w16) hlo hhi
  obtain ⟨hbyte, hentry, -⟩ := romEntry_of_lt hhigh ha
  obtain ⟨lbyte, lentry, -⟩ := romEntry_of_lt hlow hb
  have hvalue : hbyte.toNat * 256 + lbyte.toNat = concatHalves .w16 hbyte.toNat lbyte.toNat :=
    (concatHalves_eq .w16 _ lbyte.isLt).symm
  have hw : SampleWalk (.composed .w16) k [h, a, b] [] (hbyte.toNat * 256 + lbyte.toNat) _ :=
    .split h0 hk ⟨hlo, hhi⟩ (.byte hhigh ha hentry rfl) (.byte hlow hb lentry rfl) hvalue
  refine ⟨hbyte, lbyte, _, hentry, lentry, rfl, (hw.exec (i := .genW16 k) rfl hin).trans ?_⟩
  simp [respondValue, respond, State.afterDraws, drawEvents, answerInputs, indexRequest, splitRequest, splitLo, splitHi,
    ComposerWidth.half, Width.bits]

/-! ## The boundary values (R68) -/

/-- The response to a sample of popcount 0 is 0, and to one of popcount W it is 2^W − 1. -/
theorem boundary_response_of_isSample {w : Width} {k v : Nat} (hv : isSample w k v = true) :
    (k = 0 → BitVec.ofNat 128 v = 0) ∧ (k = w.bits → (BitVec.ofNat 128 v).toNat = 2 ^ w.bits - 1) := by
  obtain ⟨-, hpop, hlt⟩ := (isSample_iff _ _ _).mp hv
  constructor
  · intro h0
    obtain rfl : v = 0 := eq_zero_of_popcount hlt (hpop.trans h0)
    rfl
  · exact fun hW => (toNat_ofNat_of_isSample hv).trans (eq_ones_of_popcount hlt (hpop.trans hW))

/-- The composer's shortcuts make no draw (R53). -/
theorem exists_sampleWalk_of_boundary {c : ComposerWidth} {k : Nat} (hk : k = 0 ∨ k = c.bits) :
    ∃ v, SampleWalk (.composed c) k [] [] v [] := by
  obtain rfl | hW := hk
  · exact ⟨0, .zeros⟩
  · exact ⟨allOnes c, .ones hW rfl⟩

/-- Settles O19: the shortcuts of the composer, and the one-entry buckets of the byte sampler, reach the only sample there is. -/
theorem boundaryValuesOfEveryWidth : Obligations.BoundaryValuesOfEveryWidth := by
  constructor
  · intro s i c k hops hk
    obtain ⟨v, hw⟩ := exists_sampleWalk_of_boundary hk
    obtain ⟨hzero, hones⟩ := boundary_response_of_isSample hw.isSample
    refine ⟨BitVec.ofNat 128 v, hzero, hones, (hw.exec hops (s := s) rfl).trans ?_⟩
    rw [show answerInputs [] ++ s.inputs = s.inputs from rfl, afterDraws_no_draws]
    rfl
  · intro s k rest hk hin
    have hone : Nat.choose 8 k = 1 := (choose_at_ends (by decide)).1 hk
    have hle : k ≤ 8 := by omega
    obtain ⟨b, hb, -⟩ := romEntry_of_lt (i := (0 : Byte).toNat) hle (hone ▸ one_pos)
    have hw : SampleWalk .w8 k [0] [] b.toNat _ := .byte hle (hone ▸ one_pos) hb rfl
    obtain ⟨hzero, hones⟩ := boundary_response_of_isSample hw.isSample
    refine ⟨BitVec.ofNat 128 b.toNat, hzero, hones, (hw.exec (i := .genW8 k) rfl hin).trans ?_⟩
    simp [respondValue, respond, State.afterDraws, drawEvents, answerInputs, indexRequest, hone]

/-! ## What GEN refuses (R62, R69) -/

/-- Settles O33: the operand check comes before the first draw. -/
theorem genRaisesPopcountRange : Obligations.GenRaisesPopcountRange := by
  intro i w k s hops hgt
  obtain ⟨-, hraise⟩ | ⟨hle, -⟩ := generate_cases hardware w k s
  · exact (exec_of_genOperands hops s).trans hraise
  · omega

/-- A command whose operands fail a check of R72 raises that check's reason. -/
theorem exec_of_operandCheck {i : Instr} {e : Reason} (h : operandCheck i = some e) (s : State) :
    exec i s = .next (raiseInvalidRequest e s) := by
  obtain ⟨w, k, hops, -⟩ | ⟨k, j, rfl⟩ | ⟨k, rfl⟩ := exec_cases i
  · rw [operandCheck_of_genOperands hops, Option.ite_none_right_eq_some] at h
    obtain ⟨hgt, he⟩ := h
    obtain rfl := Option.some.inj he
    exact genRaisesPopcountRange i w k s hops hgt
  · obtain ⟨hgt, hraise⟩ | ⟨hle, hge, hraise⟩ | ⟨hle, hlt, -⟩ := execRomrd_cases k j s
    · obtain rfl : Reason.popcountRange = e := by simpa [operandCheck, genOperands, hgt] using h
      exact hraise
    · obtain rfl : Reason.indexRange = e := by simpa [operandCheck, genOperands, Nat.not_lt.mpr hle, hge] using h
      exact hraise
    · simp [operandCheck, genOperands, Nat.not_lt.mpr hle, Nat.not_le.mpr hlt] at h
  · obtain ⟨hgt, hraise⟩ | ⟨hle, -⟩ := execRomsz_cases k s
    · obtain rfl : Reason.popcountRange = e := by simpa [operandCheck, genOperands, hgt] using h
      exact hraise
    · simp [operandCheck, genOperands, Nat.not_lt.mpr hle] at h

/-- Running a word that fails a check of R72 raises that check's reason, in the decoder or in the meaning. -/
theorem runCommand_of_staticCheck {s : State} {e : Reason} (h : staticCheck hardware s.cur = some e) :
    runCommand s = .next (raiseInvalidRequest e s) := by
  obtain ⟨e', hdec, hrun⟩ | ⟨i, hdec, hrun⟩ := runCommand_cases s
  · obtain rfl := Option.some.inj ((staticCheck_of_invalid hdec).symm.trans h)
    exact hrun
  · exact hrun.trans (exec_of_operandCheck ((staticCheck_of_instr hdec).symm.trans h) s)

theorem step_running {s : State} (hp : s.phase = .busy) (hd : s.drawOut = none) (hu : s.undisturbed = true) :
    step s = runCommand s := by
  rw [step_of_canMove hu (by simp [canMove, hp, hd])]
  simp [blockMove, hp, hd]

theorem drawsOf_append (es fs : List Event) : drawsOf (es ++ fs) = drawsOf es ++ drawsOf fs := by
  induction es with
  | nil => rfl
  | cons e es ih => cases e <;> simp [drawsOf, ih]

/-- Settles O26: the step raises the reason found, and InvalidRequest adds a response to the record and no draw. This is so for
every OP, so the proof does not use that it is GEN's. -/
theorem invalidGenIssuesNoDrawAndNoValue : Obligations.InvalidGenIssuesNoDrawAndNoValue := by
  intro s e hp hd hu _hop hcheck
  have hstep : step s = .next (raiseInvalidRequest e s) := (step_running hp hd hu).trans (runCommand_of_staticCheck hcheck)
  obtain ⟨hstatus, -⟩ := statusTellsWhetherThereIsAValue.1 (.error e)
  refine ⟨_, .error e, hstep, rfl, rfl, (fun hzero => nomatch hstatus.mp hzero), rfl, rfl, rfl, ?_, rfl, rfl⟩
  rw [raiseInvalidRequest_history, drawsOf_append]
  exact List.append_nil _

end Sys2Proof.Machine

/-! PROOFS (60_exceptions.md). The family of R71 to R79: which error a word and its command can respond, what an abort leaves, and
the wait for a silent source. -/

namespace Sys2Proof.Machine

/-! ## The first check that applies (R71, R72) -/

/-- Every error that a command can respond: the one its operands fail a check with, or DRAW_RANGE. -/
theorem error_of_exec {i : Instr} {s t : State} {e : Reason} (ht : exec i s = .next t) (hphase : t.phase = .respond)
    (hrsp : t.rspBuf = some (.error e)) : operandCheck i = some e ∨ e = .drawRange := by
  have reason_of_raise {e' : Reason} {u : State} (h : exec i s = .next (raiseInvalidRequest e' u)) : e' = e := by
    obtain rfl := Host.Outcome.next.inj (h.symm.trans ht)
    exact Response.error.inj (Option.some.inj hrsp)
  have not_value {v : Nat} {u : State} (h : exec i s = .next (respondValue v u)) : False := by
    obtain rfl := Host.Outcome.next.inj (h.symm.trans ht)
    exact nomatch hrsp
  obtain ⟨w, k, hops, hgen⟩ | ⟨k, j, rfl⟩ | ⟨k, rfl⟩ := exec_cases i
  · obtain ⟨hgt, hraise⟩ | ⟨hk, -⟩ := generate_cases hardware w k s
    · obtain rfl := reason_of_raise ((hgen s).trans hraise)
      exact .inl ((operandCheck_of_genOperands hops).trans (if_pos hgt))
    · obtain ⟨u, t', hend', -, -, hend⟩ := generate_ends hardware hk s
      have hrun := (hgen s).trans hend'
      cases hend with
      | value _ => exact (not_value hrun).elim
      | outOfRange => exact .inr (reason_of_raise hrun).symm
      | waits _ =>
        obtain rfl := Host.Outcome.next.inj (hrun.symm.trans ht)
        exact nomatch hphase
  · obtain ⟨hgt, hraise⟩ | ⟨hle, hge, hraise⟩ | ⟨-, -, b, -, hvalue⟩ := execRomrd_cases k j s
    · obtain rfl := reason_of_raise hraise
      exact .inl (by simp [operandCheck, genOperands, hgt])
    · obtain rfl := reason_of_raise hraise
      exact .inl (by simp [operandCheck, genOperands, Nat.not_lt.mpr hle, hge])
    · exact (not_value hvalue).elim
  · obtain ⟨hgt, hraise⟩ | ⟨-, hvalue⟩ := execRomsz_cases k s
    · obtain rfl := reason_of_raise hraise
      exact .inl (by simp [operandCheck, genOperands, hgt])
    · exact (not_value hvalue).elim

/-- Settles O34: the decoder and the operand checks are R72's list, and a command whose operands pass has one error left. -/
theorem firstFailedCheckIsReported : Obligations.FirstFailedCheckIsReported := by
  constructor
  · intro p w e hdec
    rw [staticCheck_of_decode, hdec]
  · intro s hp hd hu
    have hstep := step_running hp hd hu
    split
    case h_1 e hcheck => exact hstep.trans (runCommand_of_staticCheck hcheck)
    case h_2 hcheck =>
      obtain ⟨e, hdec, -⟩ | ⟨i, hdec, hrun⟩ := runCommand_cases s
      · exact nomatch (staticCheck_of_invalid hdec).symm.trans hcheck
      · refine ⟨i, hdec, hstep.trans hrun, fun t e ht hphase hrsp => ?_⟩
        obtain hfail | hdraw := error_of_exec ht hphase hrsp
        · exact nomatch hfail.symm.trans ((staticCheck_of_instr hdec).symm.trans hcheck)
        · exact hdraw

/-! ## The abort of a request (R73) -/

/-- Settles O35: InvalidRequest is the response (reason, 0). -/
theorem invalidRequestAbortsTheRequest : Obligations.InvalidRequestAbortsTheRequest := fun e s =>
  ⟨raiseInvalidRequest_phase e s, raiseInvalidRequest_work e s, raiseInvalidRequest_drawOut e s,
    raiseInvalidRequest_cur e s, raiseInvalidRequest_inputs e s, raiseInvalidRequest_cmdIn e s,
    .error e, raiseInvalidRequest_rspBuf e s, rfl, rfl⟩

theorem inRange_eq_false_iff (d : DrawReq) (v : Byte) :
    d.inRange v = false ↔ v.toNat < d.lo.toNat ∨ d.hi.toNat < v.toNat := by
  rw [← Bool.not_eq_true, inRange_iff]
  omega

/-- Settles O36: the answer is taken first, so the record has it before the response. -/
theorem answerOutOfRangeAborts : Obligations.AnswerOutOfRangeAborts := by
  intro s d v l hp hd hin hout
  have hrange : d.inRange v = false := (inRange_eq_false_iff d v).mpr hout
  rw [step_answer_of_waiting hp (Option.isSome_of_eq_some hd) hin, pump_outOfRange hardware hd hrange]
  simp [raiseInvalidRequest, respond, acceptAnswer]

/-! ## The wait for a silent source (R79) -/

theorem blockMove_of_not_canMove {s : State} (hm : canMove s = false) : blockMove s = .next s := by
  obtain ⟨w, ws, hp, hc, -⟩ | ⟨hp, hd, -⟩ | ⟨-, hmove⟩ := blockMove_cases s
  · simp [canMove, hp, hc] at hm
  · simp [canMove, hp, hd] at hm
  · exact hmove

/-- A block with no move of its own takes the next input, whatever it is, or waits. -/
theorem step_of_not_canMove {s : State} (hm : canMove s = false) : step s = takeInput s := by
  obtain ⟨l, hin, hstep⟩ | ⟨l, hin, hstep⟩ | ⟨-, hm', -⟩ | ⟨-, -, hstep⟩ := step_cases s
  · rw [hstep, takeInput, hin]
  · rw [hstep, blockMove_of_not_canMove (s := { s with inputs := l }) hm, takeInput, hin]
  · exact nomatch hm.symm.trans hm'
  · exact hstep

/-- From `s` to `t` the request has not moved: the block is where it was, and the inputs left in `t` were left in `s`. -/
structure RequestStands (s t : State) : Prop where
  phase : t.phase = s.phase
  drawOut : t.drawOut = s.drawOut
  work : t.work = s.work
  rspBuf : t.rspBuf = s.rspBuf
  cur : t.cur = s.cur
  history : t.history = s.history
  inputs : t.inputs ⊆ s.inputs

namespace RequestStands

theorem refl (s : State) : RequestStands s s := ⟨rfl, rfl, rfl, rfl, rfl, rfl, List.Subset.refl _⟩

theorem trans {s t u : State} (h : RequestStands s t) (h' : RequestStands t u) : RequestStands s u where
  phase := h'.phase.trans h.phase
  drawOut := h'.drawOut.trans h.drawOut
  work := h'.work.trans h.work
  rspBuf := h'.rspBuf.trans h.rspBuf
  cur := h'.cur.trans h.cur
  history := h'.history.trans h.history
  inputs := List.Subset.trans h'.inputs h.inputs

/-- Dropping the next input does not move the request. -/
theorem dropInput {s : State} {x : Input} {l : List Input} (hin : s.inputs = x :: l) :
    RequestStands s { s with inputs := l } :=
  ⟨rfl, rfl, rfl, rfl, rfl, rfl, hin ▸ List.subset_cons_self x l⟩

theorem offerCommand (w : Word) (s : State) : RequestStands s (Machine.offerCommand w s) :=
  ⟨rfl, rfl, rfl, rfl, rfl, rfl, List.Subset.refl _⟩

end RequestStands

/-- There is no response to take in BUSY. -/
theorem takeResponse_of_busy {s : State} (hp : s.phase = .busy) : takeResponse s = s := by
  simp [takeResponse, hp]

/-- One step of the wait: only an answer or a reset moves the request. -/
theorem step_requestStands {s : State} {d : DrawReq} (hp : s.phase = .busy) (hd : s.drawOut = some d)
    (hquiet : ∀ x ∈ s.inputs, endsTheWait x = false) : ∃ t, step s = .next t ∧ RequestStands s t := by
  rw [step_of_not_canMove (by simp [canMove, hp, hd]), takeInput]
  rcases hin : s.inputs with _ | ⟨x, l⟩
  · exact ⟨s, rfl, .refl s⟩
  · have hx : endsTheWait x = false := hquiet x (by simp [hin])
    have hdrop : RequestStands s { s with inputs := l } := .dropInput hin
    cases x with
    | command w => exact ⟨_, rfl, hdrop.trans (.offerCommand w _)⟩
    | answer v => exact nomatch hx
    | take => exact ⟨_, rfl, (takeResponse_of_busy (s := { s with inputs := l }) hp).symm ▸ hdrop⟩
    | reset => exact nomatch hx
    | tick => exact ⟨_, rfl, hdrop⟩

/-- The wait, for any number of steps. -/
theorem runSteps_requestStands (n : Nat) {s : State} {d : DrawReq} (hp : s.phase = .busy) (hd : s.drawOut = some d)
    (hquiet : ∀ x ∈ s.inputs, endsTheWait x = false) : ∃ t, runSteps n s = .next t ∧ RequestStands s t := by
  induction n generalizing s with
  | zero => exact ⟨s, rfl, .refl s⟩
  | succ n ih =>
    obtain ⟨u, hstep, hu⟩ := step_requestStands hp hd hquiet
    obtain ⟨t, hrun, ht⟩ := ih (hu.phase.trans hp) (hu.drawOut.trans hd) fun x hx => hquiet x (hu.inputs hx)
    exact ⟨t, by rw [runSteps, hstep]; exact hrun, hu.trans ht⟩

/-- Settles O45: no step of the wait moves the request, and what is left of the inputs stays free of what would. -/
theorem waitsAsLongAsTheSourceIsSilent : Obligations.WaitsAsLongAsTheSourceIsSilent := by
  intro n s d hp hd hquiet
  obtain ⟨t, hrun, ht⟩ := runSteps_requestStands n hp hd hquiet
  exact ⟨t, hrun, ht.phase.trans hp, ht.drawOut.trans hd, ht.work, ht.rspBuf, ht.cur, ht.history⟩

end Sys2Proof.Machine

/-! PROOFS (70_reset_and_hazards.md). The family of R80 to R86: a reset and an answer that nothing waits for, a command offered
while another runs, and the one response that every command ends in. -/

namespace Sys2Proof.Machine

/-! ## Answers that nothing waits for, and the reset (R80, R83) -/

/-- Settles O44: with no move of its own the block takes the answer, and with no request outstanding that is to drop it. -/
theorem unsolicitedAnswersHaveNoEffect : Obligations.UnsolicitedAnswersHaveNoEffect := by
  intro s v l hd hm hin
  rw [step_of_not_canMove hm, takeInput, hin]
  exact receiveAnswer_of_none hd v l

/-- A reset comes before everything the block could do. -/
theorem step_reset {s : State} {l : List Input} (hin : s.inputs = .reset :: l) :
    step s = .next (applyReset { s with inputs := l }) := by
  simp [step, nextInput, takeInput, hin]

/-- Settles O42: the reset leaves the block IDLE with no draw outstanding, so without a held command it has no move of its own,
and the answer is an unsolicited one. -/
theorem resetReturnsToIdleFromAnywhere : Obligations.ResetReturnsToIdleFromAnywhere := by
  constructor
  · intro s l hin
    exact ⟨Config.curAfterReset s.resets, step_reset hin⟩
  · intro s v l hin hc
    have hm : canMove (applyReset { s with inputs := .answer v :: l }) = false := by simp [canMove, hc]
    exact ⟨_, step_reset hin, unsolicitedAnswersHaveNoEffect _ v l rfl hm rfl⟩

/-! ## Commands offered outside IDLE (R82) -/

/-- From `s` to `t` no command was accepted and none was offered: CUR and what the requester holds are as they were, and the
record grew by other events than an acceptance. -/
structure NoneAccepted (s t : State) : Prop where
  cur : t.cur = s.cur
  cmdIn : t.cmdIn = s.cmdIn
  history : ∃ es, t.history = s.history ++ es ∧ ∀ w, Event.accepted w ∉ es

namespace NoneAccepted
variable {s t u : State}

theorem silent (hcur : t.cur = s.cur) (hcmd : t.cmdIn = s.cmdIn) (hhist : t.history = s.history) : NoneAccepted s t :=
  ⟨hcur, hcmd, [], by simp [hhist], nofun⟩

theorem event {e : Event} (hcur : t.cur = s.cur) (hcmd : t.cmdIn = s.cmdIn) (hhist : t.history = s.history ++ [e])
    (he : ∀ w, .accepted w ≠ e) : NoneAccepted s t :=
  ⟨hcur, hcmd, [e], hhist, fun w hw => he w (List.mem_singleton.mp hw)⟩

theorem trans (h : NoneAccepted s t) (h' : NoneAccepted t u) : NoneAccepted s u where
  cur := h'.cur.trans h.cur
  cmdIn := h'.cmdIn.trans h.cmdIn
  history := by
    obtain ⟨es, hes, hnone⟩ := h.history
    obtain ⟨fs, hfs, hnone'⟩ := h'.history
    exact ⟨es ++ fs, by simp [hes, hfs], fun w hw => (List.mem_append.mp hw).elim (hnone w) (hnone' w)⟩

/-- To the one state that a move of the block can answer. -/
theorem of_next (hu : .next u = (.next t : Host.Outcome State Fault Refusal)) (h : NoneAccepted s u) : NoneAccepted s t :=
  Host.Outcome.next.inj hu ▸ h

theorem withInputs (s : State) (l : List Input) : NoneAccepted s { s with inputs := l } := silent rfl rfl rfl

theorem respond (r : Response) (s : State) : NoneAccepted s (Machine.respond r s) := event rfl rfl rfl nofun

theorem issueDraw (w : Work) (d : DrawReq) (s : State) : NoneAccepted s (Machine.issueDraw w d s) :=
  event rfl rfl rfl nofun

theorem acceptAnswer (v : Byte) (l : List Input) (s : State) : NoneAccepted s (Machine.acceptAnswer v l s) :=
  event rfl rfl rfl nofun

theorem takeResponse (s : State) : NoneAccepted s (Machine.takeResponse s) := by
  obtain ⟨r, -, -, htake⟩ | htake := takeResponse_cases s
  · rw [htake]
    exact event rfl rfl rfl nofun
  · rw [htake]
    exact silent rfl rfl rfl

end NoneAccepted

/-- The pump takes answers, makes requests and responds. -/
theorem noneAccepted_of_pump (p : Params) (l : List Input) {s t : State} {d : DrawReq} (hd : s.drawOut = some d)
    (ht : pump p l s = .next t) : NoneAccepted s t := by
  induction l generalizing s d with
  | nil => exact .of_next ht (.silent rfl rfl rfl)
  | cons x l ih =>
    have answered (v : Byte) : NoneAccepted s (acceptAnswer v l s) := .acceptAnswer v l s
    obtain ⟨-, hpump⟩ | ⟨v, r, hl, ⟨-, hpump⟩ | ⟨-, ⟨y, -, hpump⟩ | ⟨w, d', -, hpump⟩ | ⟨f, -, hpump⟩⟩⟩ :=
      pump_cases p (x :: l) hd
    case inl => exact .of_next (hpump.symm.trans ht) (.silent rfl rfl rfl)
    all_goals obtain ⟨rfl, rfl⟩ := List.cons.inj hl
    all_goals rw [hpump] at ht
    · exact .of_next ht ((answered v).trans (.respond _ _))
    · exact .of_next ht ((answered v).trans (.respond _ _))
    · exact ((answered v).trans (.issueDraw w d' _)).trans (ih rfl ht)
    · exact absurd ht nofun

theorem noneAccepted_of_exec {i : Instr} {s t : State} (ht : exec i s = .next t) : NoneAccepted s t := by
  have responds {r : Response} (h : exec i s = .next (respond r s)) : NoneAccepted s t :=
    .of_next (h.symm.trans ht) (.respond r s)
  obtain ⟨w, k, -, hgen⟩ | ⟨k, j, rfl⟩ | ⟨k, rfl⟩ := exec_cases i
  · obtain ⟨-, hraise⟩ | ⟨-, hsample⟩ := generate_cases hardware w k s
    · exact responds ((hgen s).trans hraise)
    have hexec := (hgen s).trans hsample
    obtain ⟨v, -, h⟩ | ⟨wk, d, -, h⟩ | ⟨f, -, h⟩ := startSample_cases hardware w k s
    · exact responds (hexec.trans h)
    · exact (NoneAccepted.issueDraw wk d s).trans
        (noneAccepted_of_pump hardware s.inputs rfl ((hexec.trans h).symm.trans ht))
    · exact nomatch (hexec.trans h).symm.trans ht
  · obtain ⟨r, hr⟩ := execRomrd_eq_respond k j
    exact responds (hr s)
  · obtain ⟨r, hr⟩ := execRomsz_eq_respond k
    exact responds (hr s)

/-- Only in IDLE is the block's move to accept a command (R12). -/
theorem noneAccepted_of_blockMove {s t : State} (hp : s.phase ≠ .idle) (ht : blockMove s = .next t) :
    NoneAccepted s t := by
  obtain ⟨w, ws, hidle, -⟩ | ⟨-, -, h⟩ | ⟨-, h⟩ := blockMove_cases s
  · exact absurd hidle hp
  · obtain ⟨e, -, hrun⟩ | ⟨i, -, hrun⟩ := runCommand_cases s
    · exact .of_next ((h.trans hrun).symm.trans ht) (.respond _ s)
    · exact noneAccepted_of_exec ((h.trans hrun).symm.trans ht)
  · exact .of_next (h.symm.trans ht) (.silent rfl rfl rfl)

theorem noneAccepted_of_receiveAnswer {s t : State} {v : Byte} {l : List Input} (ht : receiveAnswer v l s = .next t) :
    NoneAccepted s t := by
  rcases hd : s.drawOut with _ | d
  · exact .of_next ((receiveAnswer_of_none hd v l).symm.trans ht) (.withInputs s l)
  · exact noneAccepted_of_pump hardware _ hd ((receiveAnswer_of_some hd v l).symm.trans ht)

/-- An input other than an offer and a reset. -/
theorem noneAccepted_of_takeInput {s t : State} (hoffer : ∀ w l, s.inputs ≠ .command w :: l)
    (hreset : ∀ l, s.inputs ≠ .reset :: l) (ht : takeInput s = .next t) : NoneAccepted s t := by
  unfold takeInput at ht
  rcases hin : s.inputs with _ | ⟨x, l⟩
  all_goals rw [hin] at ht
  case nil => exact .of_next ht (.silent rfl rfl rfl)
  cases x with
  | command w => exact absurd hin (hoffer w l)
  | answer v => exact noneAccepted_of_receiveAnswer ht
  | take => exact .of_next ht ((NoneAccepted.withInputs s l).trans (.takeResponse _))
  | reset => exact absurd hin (hreset l)
  | tick => exact .of_next ht (.withInputs s l)

/-- Outside IDLE a step that takes neither an offer nor a reset. -/
theorem noneAccepted_of_step {s t : State} (hp : s.phase ≠ .idle)
    (hoffer : canMove s = true ∨ ∀ w l, s.inputs ≠ .command w :: l) (hreset : ∀ l, s.inputs ≠ .reset :: l)
    (ht : step s = .next t) : NoneAccepted s t := by
  obtain ⟨l, hin, -⟩ | ⟨l, -, h⟩ | ⟨-, -, h⟩ | ⟨-, hm, h⟩ := step_cases s
  · exact absurd hin (hreset l)
  · exact (NoneAccepted.withInputs s l).trans (noneAccepted_of_blockMove hp (h.symm.trans ht))
  · exact noneAccepted_of_blockMove hp (h.symm.trans ht)
  · exact noneAccepted_of_takeInput (hoffer.resolve_left (by simp [hm])) hreset (h.symm.trans ht)

/-- A block with no move of its own takes the offer. -/
theorem step_offer {s : State} {w : Word} {l : List Input} (hm : canMove s = false) (hin : s.inputs = .command w :: l) :
    step s = .next (offerCommand w { s with inputs := l }) := by
  rw [step_of_not_canMove hm, takeInput, hin]

/-- Settles O40: outside IDLE a reset and an offer taken change what they are there for, and no other step touches CUR, what is
held, or the record of acceptances. -/
theorem offeredCommandsAreHeldWhileNotIdle : Obligations.OfferedCommandsAreHeldWhileNotIdle := by
  refine ⟨fun s w l hm hin => step_offer hm hin, fun s t hp ht => ?_⟩
  by_cases hreset : ∃ l, s.inputs = .reset :: l
  · obtain ⟨l, hin⟩ := hreset
    obtain rfl := Host.Outcome.next.inj ((step_reset hin).symm.trans ht)
    have hnext : nextInput s = .reset := by simp [nextInput, hin]
    exact ⟨fun _ => rfl, fun hother => absurd hnext hother, [.wasReset], rfl, by simp⟩
  by_cases hkept : canMove s = true ∨ ∀ w l, s.inputs ≠ .command w :: l
  · have hnone := noneAccepted_of_step hp hkept (fun l hin => hreset ⟨l, hin⟩) ht
    exact ⟨fun _ => hnone.cmdIn, fun _ => hnone.cur, hnone.history⟩
  · obtain ⟨hm, w, l, hin⟩ : canMove s = false ∧ ∃ w l, s.inputs = .command w :: l := by simpa using hkept
    obtain rfl := Host.Outcome.next.inj ((step_offer hm hin).symm.trans ht)
    exact ⟨fun h => absurd h hkept, fun _ => rfl, [], by simp, nofun⟩

/-! ## The one response of a command (R86) -/

theorem responseCount_append (es fs : List Event) : responseCount (es ++ fs) = responseCount es + responseCount fs := by
  induction es with
  | nil => simp [responseCount]
  | cons e es ih => cases e <;> simp [responseCount, ih, Nat.add_right_comm]

theorem responseCount_drawEvents (ds : List DrawReq) (as : List Byte) : responseCount (drawEvents ds as) = 0 := by
  induction ds generalizing as with
  | nil => rfl
  | cons d ds ih =>
    rcases as with _ | ⟨a, as⟩
    · rfl
    · exact ih as

theorem after_eq_waiting {f : Followed} {d : DrawReq} {ds : List DrawReq} (h : f.after d = .waiting ds) :
    ∃ ds', f = .waiting ds' ∧ ds = d :: ds' := by
  cases f with
  | waiting ds' => exact ⟨ds', rfl, (Followed.waiting.inj h).symm⟩
  | value v ds' u => exact nomatch h
  | aborted ds' u => exact nomatch h
  | stopped f => exact nomatch h

/-- A walk that waits has used up its answers, and its last request has none. -/
theorem length_of_follow_eq_waiting {t : DrawTree} {as : List Byte} {ds : List DrawReq} (h : t.follow as = .waiting ds) :
    ds.length = as.length + 1 := by
  induction as generalizing t ds with
  | nil =>
    cases t with
    | ret v => exact nomatch h
    | violate f => exact nomatch h
    | ask d go =>
      obtain rfl := Followed.waiting.inj h
      rfl
  | cons a as ih =>
    cases t with
    | ret v => exact nomatch h
    | violate f => exact nomatch h
    | ask d go =>
      rw [DrawTree.follow] at h
      split at h
      case isTrue =>
        obtain ⟨ds', hf, rfl⟩ := after_eq_waiting h
        simp [ih hf]
      case isFalse => exact nomatch h

/-- With 31 answers at hand a command does not wait: it responds, after requests that were answered (R61). -/
theorem exec_responds {s : State} {as : List Byte} {rest : List Input} (hin : s.inputs = answerInputs as ++ rest)
    (hlen : 31 ≤ as.length) (i : Instr) : ∃ r ds l, exec i s = .next (respond r (s.afterDraws ds as l)) := by
  have at_once {r : Response} (h : exec i s = .next (respond r s)) :
      ∃ r ds l, exec i s = .next (respond r (s.afterDraws ds as l)) :=
    ⟨r, [], s.inputs, by rw [afterDraws_no_draws, h]⟩
  obtain ⟨w, k, -, hgen⟩ | ⟨k, j, rfl⟩ | ⟨k, rfl⟩ := exec_cases i
  · obtain ⟨-, hraise⟩ | ⟨hk, -⟩ := generate_cases hardware w k s
    · exact at_once ((hgen s).trans hraise)
    have hrun := genRunsTheRecursiveDefinition hardware w k s as rest hk hin
    have hbound := drawsStayWithinTheirBound w k as hk
    cases hf : (sampleTree hardware w k).follow as with
    | value v ds u =>
      rw [hf] at hrun
      exact ⟨_, ds, _, (hgen s).trans hrun⟩
    | aborted ds u =>
      rw [hf] at hrun
      exact ⟨_, ds, _, (hgen s).trans hrun⟩
    | waiting ds =>
      rw [hf] at hbound
      have hused := length_of_follow_eq_waiting hf
      have hwidth := width_bits_le w
      omega
    | stopped f =>
      rw [hf] at hbound
      exact hbound.elim
  · obtain ⟨r, hr⟩ := execRomrd_eq_respond k j
    exact at_once (hr s)
  · obtain ⟨r, hr⟩ := execRomsz_eq_respond k
    exact at_once (hr s)

/-- What a command responds is allowed for its word in every state: a command does not see the response that was there before
(R10), and where there was none it leads to a well-placed state. -/
theorem allowedResponse_of_exec {i : Instr} {s t : State} {r : Response} (hdec : decode hardware s.cur = .instr i)
    (ht : exec i s = .next t) (hphase : t.phase = .respond) (hrsp : t.rspBuf = some r) : allowedResponse s.cur r = true := by
  obtain ⟨t', ht', hcourse⟩ := exec_sameCourse i (s := s) (s' := { s with rspBuf := none }) rfl ht
  obtain ⟨u, hu, hplaced⟩ := exec_wellPlaced (s := { s with rspBuf := none }) hdec rfl
  obtain rfl := Host.Outcome.next.inj (ht'.symm.trans hu)
  obtain ⟨hframe, -⟩ := exec_frame ht'
  obtain ⟨-, -, r', hr', hallowed⟩ := (respond_wellPlaced_iff (hcourse.phase.trans hphase)).mp hplaced
  obtain rfl : r = r' := Option.some.inj ((hrsp.symm.trans (hcourse.rspBuf hphase).symm).trans hr')
  rwa [hframe.cur] at hallowed

/-- The word in CUR, valid or not, is responded to. -/
theorem runCommand_responds {s : State} {as : List Byte} {rest : List Input} (hin : s.inputs = answerInputs as ++ rest)
    (hlen : 31 ≤ as.length) :
    ∃ r ds l, runCommand s = .next (respond r (s.afterDraws ds as l)) ∧ allowedResponse s.cur r = true := by
  obtain ⟨e, hdec, hrun⟩ | ⟨i, hdec, hrun⟩ := runCommand_cases s
  · exact ⟨.error e, [], s.inputs, by rw [afterDraws_no_draws, hrun, raiseInvalidRequest],
      allowedResponse_of_check (staticCheck_of_invalid hdec)⟩
  · obtain ⟨r, ds, l, hexec⟩ := exec_responds hin hlen i
    exact ⟨r, ds, l, hrun.trans hexec, allowedResponse_of_exec hdec hexec rfl rfl⟩

/-- Settles O47: the step runs the word in CUR, whose events are requests with their answers and then the one response. -/
theorem everyCommandEndsInOneResponse : Obligations.EveryCommandEndsInOneResponse := by
  intro s as rest hp hd hin hlen
  have hu : s.undisturbed = true := by
    obtain ⟨a, as, rfl⟩ := List.exists_cons_of_length_pos (Nat.lt_of_lt_of_le (by decide) hlen)
    simp [State.undisturbed, nextInput, hin, answerInputs]
  obtain ⟨r, ds, l, hrun, hallowed⟩ := runCommand_responds hin hlen
  refine ⟨_, r, (step_running hp hd hu).trans hrun, rfl, rfl, hallowed, ?_⟩
  calc responseCount (s.history ++ drawEvents ds as ++ [.responded r])
      = responseCount s.history + responseCount (drawEvents ds as) + 1 := by
        simp only [responseCount_append, responseCount]
    _ = responseCount s.history + 1 := by rw [responseCount_drawEvents, Nat.add_zero]

end Sys2Proof.Machine
